-- ==== Sys2Proof/Word.lean ====
section
/-! DEFINITION. The 32-bit word of CORE and the 5-bit register index (00_scope R5, R6; 10_state R10). -/

namespace Sys2Proof

/-- A 32-bit word: a register value, an instruction word, a memory word or a program counter value. It has
no signedness of its own (R6). Bit 31 is the most significant. -/
abbrev Word := BitVec 32

/-- A register index: five bits, so it is never out of range (R10, R94). -/
abbrev RegIdx := BitVec 5

end Sys2Proof
end

