-- ==== Sys2Proof/Syntax.lean ====
section
/-! DEFINITION. The instructions (one constructor per row of spec/opcode_table.json), the record the Decode
stage produces, the names of the unrecognised encodings, and the label of a step. -/

namespace Sys2Proof

/-- The seven instructions of CORE (00_scope R4). An immediate is the 32-bit value `imm` of the decoded record
(30_encoding R40): already sign-extended (I, J) or in place (U) (DESIGN CHOICE, log entry 10). `jalr` keeps its `funct3`, which the decoder
extracts and the selection does not test (R50; DESIGN CHOICE, log entry 9). -/
inductive Instr where
  | lui (rd : RegIdx) (imm : Word)
  | auipc (rd : RegIdx) (imm : Word)
  | jal (rd : RegIdx) (imm : Word)
  | jalr (rd rs1 : RegIdx) (funct3 : BitVec 3) (imm : Word)
  | addi (rd rs1 : RegIdx) (imm : Word)
  | add (rd rs1 rs2 : RegIdx)
  | sub (rd rs1 rs2 : RegIdx)
  deriving DecidableEq, Repr

/-- The destination register: every instruction has exactly one (10_state R12). -/
def Instr.rd : Instr → RegIdx
  | .lui rd _ => rd
  | .auipc rd _ => rd
  | .jal rd _ => rd
  | .jalr rd _ _ _ => rd
  | .addi rd _ _ => rd
  | .add rd _ _ => rd
  | .sub rd _ _ => rd

/-- The Decoded Instruction, the output of the Decode stage (R40). It is transient, not state (10_state R18). -/
structure Decoded where
  opcode : BitVec 7
  rd : RegIdx
  funct3 : BitVec 3
  rs1 : RegIdx
  rs2 : RegIdx
  funct7 : BitVec 7
  imm : Word
  deriving DecidableEq, Repr

/-- The classes of words that are none of the seven instructions (44_unrecognised R80 to R85). All of them
execute as the one no-op of R79: the class is a name only (DESIGN CHOICE, log entry 22). -/
inductive Unrecognised where
  /-- opcode 0x13 with a `funct3` other than 0 (R80) -/
  | aluImm
  /-- opcode 0x33 with another `funct3` or `funct7` (R81) -/
  | aluReg
  /-- opcode 0x03 (R82) -/
  | load
  /-- opcode 0x23 (R82) -/
  | store
  /-- opcode 0x63 (R82) -/
  | branch
  /-- opcode 0x0F, the fences (R83) -/
  | miscMem
  /-- opcode 0x73, the system instructions (R83) -/
  | system
  /-- the word 0x00000000 (R84) -/
  | zeroWord
  /-- the word 0xFFFFFFFF (R84) -/
  | onesWord
  /-- every other opcode (R85) -/
  | otherOpcode
  deriving DecidableEq, Repr

/-- What a word selects (30_encoding R50): one of the seven instructions, or none of them, rejected by name. -/
inductive Selected where
  | instr (i : Instr)
  | unrecognised (c : Unrecognised)
  deriving DecidableEq, Repr

/-- The outcome label of a step (40_fetch R68, D13; UNVERIFIED, log entry 15): an output of the step, not part of the state. -/
inductive Label where
  | lui | auipc | jal | jalr | addi | add | sub | noop
  deriving DecidableEq, Repr

end Sys2Proof
end

