-- ==== Sys2Proof/WellFormed.lean ====
section
/-! DEFINITION. Which instruction terms an encoding can hold: the ranges of the immediates (30_encoding R45
to R47; the operand ranges of R55). Register indices and `funct3` are bounded by their types. -/

namespace Sys2Proof

/-- A value the I-type immediate can take: the sign extension of its own low 12 bits (R45). -/
def fitsI (imm : Word) : Bool := (imm.setWidth 12).signExtend 32 == imm

/-- A value the U-type immediate can take: its low 12 bits are zero (R46). -/
def fitsU (imm : Word) : Bool := imm.setWidth 12 == 0#12

/-- A value the J-type immediate can take: even, and the sign extension of its own low 21 bits (R47). -/
def fitsJ (imm : Word) : Bool := (imm.setWidth 21).signExtend 32 == imm && !imm.getLsbD 0

/-- The instruction's immediate is one its format can encode. -/
def Instr.wellFormed : Instr → Bool
  | .lui _ imm => fitsU imm
  | .auipc _ imm => fitsU imm
  | .jal _ imm => fitsJ imm
  | .jalr _ _ _ imm => fitsI imm
  | .addi _ _ imm => fitsI imm
  | .add _ _ _ => true
  | .sub _ _ _ => true

end Sys2Proof
end

