-- ==== Sys2Proof/Decode.lean ====
section
/-! DEFINITION. The Decode stage (30_encoding R39 to R49), the selection of the instruction (R50, 40_fetch R61)
and, after them, the encoder written from the same tables (R41, R43, R44). -/

namespace Sys2Proof

/-! ## Opcode values (R43; four of them are UNVERIFIED, log entry 7) and function values (R44) -/

def opLui : BitVec 7 := 0b0110111#7
def opAuipc : BitVec 7 := 0b0010111#7
def opJal : BitVec 7 := 0b1101111#7
def opJalr : BitVec 7 := 0b1100111#7
def opAluImm : BitVec 7 := 0b0010011#7
def opAluReg : BitVec 7 := 0b0110011#7

/-- `funct3` of ADDI, ADD and SUB (R44). -/
def f3AddSub : BitVec 3 := 0b000#3
/-- `funct7` of ADD (R44). -/
def f7Add : BitVec 7 := 0b0000000#7
/-- `funct7` of SUB (R44). -/
def f7Sub : BitVec 7 := 0b0100000#7

/-! ## The Decode stage -/

/-- The slice `w[hi:lo]` of R6. -/
def bits (w : Word) (hi lo : Nat) : BitVec (hi - lo + 1) := w.extractLsb hi lo

/-- I-type immediate: bits 31 to 20, sign-extended (R45). -/
def immI (w : Word) : Word := (bits w 31 20).signExtend 32

/-- U-type immediate: the word with its low 12 bits masked (R46). -/
def immU (w : Word) : Word := w &&& 0xFFFFF000#32

/-- J-type immediate: four groups of bits and a zero, sign-extended from bit 20 (R47). -/
def immJ (w : Word) : Word :=
  (bits w 31 31 ++ bits w 19 12 ++ bits w 20 20 ++ bits w 30 21 ++ 0b0#1).signExtend 32

/-- The immediate of a word: its format is decided by the opcode alone (R42), and it is zero for every opcode
without one (R48). -/
def immOf (w : Word) : Word :=
  if bits w 6 0 = opAluImm ∨ bits w 6 0 = opJalr then immI w
  else if bits w 6 0 = opLui ∨ bits w 6 0 = opAuipc then immU w
  else if bits w 6 0 = opJal then immJ w
  else 0#32

/-- The Decode stage: a total, pure function of the word (R49); fields at fixed positions (R39). -/
def decodeFields (w : Word) : Decoded :=
  { opcode := bits w 6 0
    rd := bits w 11 7
    funct3 := bits w 14 12
    rs1 := bits w 19 15
    rs2 := bits w 24 20
    funct7 := bits w 31 25
    imm := immOf w }

/-! ## Instruction selection -/

/-- Dispatch on opcode, then `funct3`, then `funct7` (40_fetch R61); `none` is its last arm, the no-op. -/
def select (d : Decoded) : Option Instr :=
  if d.opcode = opLui then some (.lui d.rd d.imm)
  else if d.opcode = opAuipc then some (.auipc d.rd d.imm)
  else if d.opcode = opJal then some (.jal d.rd d.imm)
  else if d.opcode = opJalr then some (.jalr d.rd d.rs1 d.funct3 d.imm)
  else if d.opcode = opAluImm ∧ d.funct3 = f3AddSub then some (.addi d.rd d.rs1 d.imm)
  else if d.opcode = opAluReg ∧ d.funct3 = f3AddSub ∧ d.funct7 = f7Add then some (.add d.rd d.rs1 d.rs2)
  else if d.opcode = opAluReg ∧ d.funct3 = f3AddSub ∧ d.funct7 = f7Sub then some (.sub d.rd d.rs1 d.rs2)
  else none

/-- The name under which a word that selects no instruction is rejected (R80 to R85). -/
def unrecognisedClass (w : Word) : Unrecognised :=
  if w = 0x00000000#32 then .zeroWord
  else if w = 0xFFFFFFFF#32 then .onesWord
  else if bits w 6 0 = opAluImm then .aluImm
  else if bits w 6 0 = opAluReg then .aluReg
  else if bits w 6 0 = 0x03#7 then .load
  else if bits w 6 0 = 0x23#7 then .store
  else if bits w 6 0 = 0x63#7 then .branch
  else if bits w 6 0 = 0x0F#7 then .miscMem
  else if bits w 6 0 = 0x73#7 then .system
  else .otherOpcode

/-- A word's instruction, or the name of the unrecognised encoding it is. Total on all 2^32 words (R49). -/
def decode (w : Word) : Selected :=
  match select (decodeFields w) with
  | some i => .instr i
  | none => .unrecognised (unrecognisedClass w)

/-- The instruction of a selection, if it is one. -/
def Selected.instr? : Selected → Option Instr
  | .instr i => some i
  | .unrecognised _ => none

/-- The label of the arm taken (40_fetch R68). -/
def Selected.label : Selected → Label
  | .instr (.lui ..) => .lui
  | .instr (.auipc ..) => .auipc
  | .instr (.jal ..) => .jal
  | .instr (.jalr ..) => .jalr
  | .instr (.addi ..) => .addi
  | .instr (.add ..) => .add
  | .instr (.sub ..) => .sub
  | .unrecognised _ => .noop

/-- The instruction read from a word of the opcode table: bit 0 is bit 0 of the one 32-bit word an instruction
is (R38), and the bits from `nbits` up are zero. -/
def decodeTableWord (nbits w : Nat) : Option Instr := (decode (BitVec.ofNat 32 (w % 2 ^ nbits))).instr?

/-! ## The encoder: the formats of R41 -/

def encodeR (funct7 : BitVec 7) (rs2 rs1 : RegIdx) (funct3 : BitVec 3) (rd : RegIdx) (opcode : BitVec 7) : Word :=
  funct7 ++ rs2 ++ rs1 ++ funct3 ++ rd ++ opcode

def encodeI (imm : Word) (rs1 : RegIdx) (funct3 : BitVec 3) (rd : RegIdx) (opcode : BitVec 7) : Word :=
  bits imm 11 0 ++ rs1 ++ funct3 ++ rd ++ opcode

def encodeU (imm : Word) (rd : RegIdx) (opcode : BitVec 7) : Word :=
  bits imm 31 12 ++ rd ++ opcode

def encodeJ (imm : Word) (rd : RegIdx) (opcode : BitVec 7) : Word :=
  bits imm 20 20 ++ bits imm 10 1 ++ bits imm 11 11 ++ bits imm 19 12 ++ rd ++ opcode

/-- The word of an instruction; of a well-formed one, the word that decodes to it. -/
def encode : Instr → Word
  | .lui rd imm => encodeU imm rd opLui
  | .auipc rd imm => encodeU imm rd opAuipc
  | .jal rd imm => encodeJ imm rd opJal
  | .jalr rd rs1 funct3 imm => encodeI imm rs1 funct3 rd opJalr
  | .addi rd rs1 imm => encodeI imm rs1 f3AddSub rd opAluImm
  | .add rd rs1 rs2 => encodeR f7Add rs2 rs1 f3AddSub rd opAluReg
  | .sub rd rs1 rs2 => encodeR f7Sub rs2 rs1 f3AddSub rd opAluReg

end Sys2Proof
end

