-- ==== Sys2Proof/Config.lean ====
section
/-! DEFINITION. What is fixed when a core is constructed (00_scope R5): the size of the instruction memory and
the switch for register 0. There is no free value: the spec leaves no result of an instruction open. -/

namespace Sys2Proof

/-- The two parameters a model takes as arguments (R5). They are configuration, not state (R9). -/
structure Config where
  /-- `MEM_WORDS`, in words: 0 to 2^32 - 1 (R5, D3; UNVERIFIED, log entry 5). -/
  memWords : Fin (2 ^ 32)
  /-- `X0_HARDWIRED` (R5, R11, D4; UNVERIFIED, log entry 6). -/
  x0Hardwired : Bool
  deriving DecidableEq, Repr

/-- The default construction of R5: 1024 words, register 0 an ordinary register (the reference behaviour). -/
def Config.default : Config := { memWords := ⟨1024, by decide⟩, x0Hardwired := false }

end Sys2Proof
end

