-- ==== Sys2Proof/Machine/State.lean ====
section
/-! DEFINITION. The state of CORE as plain data: the three things of 10_state R9, and the configuration beside
them. -/

namespace Sys2Proof.Machine

/-- The instruction memory: (word index, word) cells (20_memory R25; DESIGN CHOICE, log entry 2). An index that is not listed
reads 0, the value reset leaves in every word (10_state R22). -/
abbrev Memory := List (Nat × Word)

/-- The architectural state (10_state R9). -/
structure State where
  /-- `MEM_WORDS` and `X0_HARDWIRED`: fixed at construction, no step changes them (R9; DESIGN CHOICE, log entry 1). -/
  config : Config
  /-- `x[0]` to `x[31]` (R10). -/
  regs : Vector Word 32
  /-- The word index of the next word to fetch (R13). -/
  pc : Word
  /-- `Mem[0..MEM_WORDS-1]` (R17). -/
  mem : Memory
  deriving DecidableEq, Repr

/-- There is no constructor: no step ends in a fault (60_exceptions R86, R89: CORE raises no exception, and
the step has no fault outcome; DESIGN CHOICE, log entry 12). -/
inductive Fault where
  deriving DecidableEq, Repr

/-- Why a step has no meaning. -/
inductive Refusal where
  /-- Raised by `exec`'s arm of an instruction that is not modelled yet (safe: the run stops). No arm
  raises it: all seven instructions have their meaning. -/
  | notModelled (mnemonic : String)
  deriving DecidableEq, Repr

/-- Reset of a core constructed with `c`: the document's `initialize` (70_reset R96, D18; values of 10_state R22; UNVERIFIED, log entry 18). -/
def State.resetWith (c : Config) : State :=
  { config := c, regs := Vector.replicate 32 0#32, pc := 0#32, mem := [] }

/-- The core right after reset, in its default construction (R22, R5). -/
def State.reset : State := State.resetWith Config.default

end Sys2Proof.Machine
end

