-- ==== Sys2Proof/Machine/Ops.lean ====
section
/-! DEFINITION. The named operations over memory, registers and the pc (the primitives of 00_scope R7) and the
Fetch stage (40_fetch R57, R58). CORE has no exceptions (60_exceptions R86), so there is no operation that takes
one and none that returns from one. -/

namespace Sys2Proof.Machine

/-! ## Memory as data -/

/-- The word at an index: the listed one, or 0 (10_state R22). -/
def Memory.read : Memory → Nat → Word
  | [], _ => 0#32
  | (b, v) :: m, a => if b = a then v else Memory.read m a

/-- Store a word, keeping the cells in rising order and listing no zero word. -/
def Memory.write : Memory → Nat → Word → Memory
  | [], a, v => if v = 0#32 then [] else [(a, v)]
  | (b, u) :: m, a, v =>
    if a < b then (if v = 0#32 then (b, u) :: m else (a, v) :: (b, u) :: m)
    else if a = b then (if v = 0#32 then m else (a, v) :: m)
    else (b, u) :: Memory.write m a v

/-- The canonical form: indices strictly rising, no listed word 0, every index inside the memory. -/
abbrev Memory.wf (memWords : Nat) (m : Memory) : Prop :=
  m.Pairwise (fun c d => c.1 < d.1) ∧ ∀ c ∈ m, c.2 ≠ 0#32 ∧ c.1 < memWords

/-! ## `MemRead` and `MemWrite` (00_scope R7, 20_memory R27) -/

/-- `MemRead(a, 4)`: the word at index `a`, defined only inside the memory (R27). -/
def State.memRead (s : State) (a : Nat) : Option Word :=
  if a < s.config.memWords.val then some (s.mem.read a) else none

/-- `MemWrite(a, 4, v)`: defined only inside the memory. Only the program load calls it (R7, 70_reset R97). -/
def State.memWrite (s : State) (a : Nat) (v : Word) : Option State :=
  if a < s.config.memWords.val then some { s with mem := s.mem.write a v } else none

/-! ## Registers -/

/-- Register `i` is the hardwired register 0 (10_state R11): reads give 0 and writes are discarded. -/
def State.hardwired (s : State) (i : RegIdx) : Bool := s.config.x0Hardwired && i == 0#5

/-- `x[i]` (00_scope R7, 10_state R11). -/
def State.readReg (s : State) (i : RegIdx) : Word :=
  if s.hardwired i then 0#32 else s.regs[i.toNat]'i.isLt

/-- `x[i] <- v` (00_scope R7, 10_state R11). -/
def State.writeReg (s : State) (i : RegIdx) (v : Word) : State :=
  if s.hardwired i then s else { s with regs := s.regs.set i.toNat v i.isLt }

/-- The 32 registers as the host reads them back after the stop (10_state R23, D14; UNVERIFIED, log entry 20). -/
def State.registerView (s : State) : Vector Word 32 :=
  Vector.ofFn fun i => s.readReg (BitVec.ofNat 5 i.val)

/-! ## Program counter -/

/-- `pc <- t`, a 32-bit word index (10_state R13, D2; UNVERIFIED, log entry 4). -/
def State.setPc (s : State) (t : Word) : State := { s with pc := t }

/-- A step is enabled: the pc is a valid index, compared as unsigned numbers (40_fetch R57). -/
def State.enabled (s : State) : Bool := decide (s.pc.toNat < s.config.memWords.val)

/-- The stopped condition, `pc >= MEM_WORDS` (40_fetch R57, R64). -/
def State.stopped (s : State) : Bool := !s.enabled

/-! ## The Fetch stage -/

/-- Reads the word at the pc, then advances the pc by one (40_fetch R58). No fetch is made when the core is
stopped (R57, 20_memory R30). -/
def State.fetch (s : State) : Option (Word × State) :=
  if s.enabled then some (s.mem.read s.pc.toNat, s.setPc (s.pc + 1#32)) else none

end Sys2Proof.Machine
end

