-- ==== Sys2Proof/Machine/Boot.lean ====
section
/-! DEFINITION. The program load and the boot (70_reset R97 to R99), and the host's serialisation of words
(20_memory R26). -/

namespace Sys2Proof.Machine

/-- The host-side error of a load (60_exceptions R94). It is not an outcome of a step. -/
inductive LoadError where
  /-- The program has more words than the memory (70_reset R98, D10; UNVERIFIED, log entry 13). -/
  | programTooLarge
  deriving DecidableEq, Repr

/-- One word put at index `a`; outside the memory nothing is put. -/
def State.placeWord (s : State) (a : Nat) (v : Word) : State := (s.memWrite a v).getD s

/-- `MemWrite` of the words at successive indices from `a` (R97). -/
def State.placeWords (s : State) : Nat → List Word → State
  | _, [] => s
  | a, v :: vs => (s.placeWord a v).placeWords (a + 1) vs

/-- `loadProgram(words)`: copies the words from index 0, or fails and changes nothing (R97, R98). -/
def loadProgram (words : List Word) (s : State) : Except LoadError State :=
  if words.length ≤ s.config.memWords.val then .ok (s.placeWords 0 words) else .error .programTooLarge

/-- Construct, reset and load: the start state of a run (R99). -/
def boot (c : Config) (words : List Word) : Except LoadError State := loadProgram words (State.resetWith c)

/-- A word from the four bytes a host stores it as, lowest file offset first: little-endian (20_memory R26,
D9; UNVERIFIED, log entry 19). The core itself has no byte order. -/
def wordOfBytes (b0 b1 b2 b3 : BitVec 8) : Word := b3 ++ b2 ++ b1 ++ b0

/-- The words of a byte stream, in the byte order of `wordOfBytes` (20_memory R26, D9).
DESIGN CHOICE (log entry 24): the spec leaves the conversion to the host and says nothing of a stream whose
length is no multiple of 4; the model turns the whole stream away (`none`). Safe: no step calls it. -/
def wordsOfBytes : List (BitVec 8) → Option (List Word)
  | [] => some []
  | b0 :: b1 :: b2 :: b3 :: bs => (wordsOfBytes bs).map (wordOfBytes b0 b1 b2 b3 :: ·)
  | _ => none

end Sys2Proof.Machine
end

