-- ==== Sys2Proof/Machine/Operands.lean ====
section
/-! DEFINITION. The ALU (43_alu R74) and the operand forms built on its adder: pc-relative values and the
target of JALR. CORE has no flags (10_state R19), so no operation here has a second result. -/

namespace Sys2Proof.Machine

/-- 32-bit addition modulo 2^32 (R74). -/
def aluAdd (a b : Word) : Word := a + b

/-- 32-bit subtraction modulo 2^32 (R74). -/
def aluSub (a b : Word) : Word := a - b

/-- `pc1 + imm` (41_upper R70, 42_jumps R71), in a state whose pc the fetch has already advanced. -/
def State.pcRel (s : State) (imm : Word) : Word := aluAdd s.pc imm

/-- `(base + imm) & ~1` (42_jumps R72). -/
def jalrTarget (base imm : Word) : Word := aluAdd base imm &&& 0xFFFFFFFE#32

end Sys2Proof.Machine
end

