-- ==== Sys2Proof/Machine/IntegerAlu.lean ====
section
/-! DEFINITION. ADDI, ADD and SUB (43_alu R75 to R77). Sources are read before the destination is written
(R78). -/

namespace Sys2Proof.Machine

/-- ADDI: `x[rd] <- x[rs1] + imm` (R75). -/
def execAddi (rd rs1 : RegIdx) (imm : Word) (s : State) : Host.Outcome State Fault Refusal :=
  .next (s.writeReg rd (aluAdd (s.readReg rs1) imm))

/-- ADD: `x[rd] <- x[rs1] + x[rs2]` (R76). -/
def execAdd (rd rs1 rs2 : RegIdx) (s : State) : Host.Outcome State Fault Refusal :=
  .next (s.writeReg rd (aluAdd (s.readReg rs1) (s.readReg rs2)))

/-- SUB: `x[rd] <- x[rs1] - x[rs2]` (R77). -/
def execSub (rd rs1 rs2 : RegIdx) (s : State) : Host.Outcome State Fault Refusal :=
  .next (s.writeReg rd (aluSub (s.readReg rs1) (s.readReg rs2)))

end Sys2Proof.Machine
end

