-- ==== Sys2Proof/Machine/Jumps.lean ====
section
/-! DEFINITION. JAL and JALR (42_jumps R71, R72). The pc a meaning sees is `pc1` (40_fetch R60). -/

namespace Sys2Proof.Machine

/-- JAL: `x[rd] <- pc1; pc <- pc1 + imm`, both from the same `pc1` (R71). -/
def execJal (rd : RegIdx) (imm : Word) (s : State) : Host.Outcome State Fault Refusal :=
  .next ((s.writeReg rd s.pc).setPc (s.pcRel imm))

/-- JALR: `x[rd] <- pc1`, then `pc <- (x[rs1] + imm) & ~1`, in this order: the base is read after the link is
written (R72 (a), D7; UNVERIFIED, log entry 8). The target may be the JALR's own index (DEDUCED, log entry 17). `funct3` is not tested (30_encoding R50). -/
def execJalr (rd rs1 : RegIdx) (_funct3 : BitVec 3) (imm : Word) (s : State) :
    Host.Outcome State Fault Refusal :=
  let linked := s.writeReg rd s.pc
  .next (linked.setPc (jalrTarget (linked.readReg rs1) imm))

end Sys2Proof.Machine
end

