-- ==== Sys2Proof/Machine/UpperImmediate.lean ====
section
/-! DEFINITION. LUI and AUIPC (41_upper_immediate R69, R70). A meaning runs after the fetch, so the pc it sees
is `pc1` (40_fetch R60) and sequential flow needs no write of the pc (42_jumps R73 (f)). -/

namespace Sys2Proof.Machine

/-- LUI: `x[rd] <- imm` (R69). -/
def execLui (rd : RegIdx) (imm : Word) (s : State) : Host.Outcome State Fault Refusal :=
  .next (s.writeReg rd imm)

/-- AUIPC: `x[rd] <- pc1 + imm` (R70). -/
def execAuipc (rd : RegIdx) (imm : Word) (s : State) : Host.Outcome State Fault Refusal :=
  .next (s.writeReg rd (s.pcRel imm))

end Sys2Proof.Machine
end

