-- ==== Sys2Proof/Machine/Unrecognised.lean ====
section
/-! DEFINITION. What the machine does where no instruction executes: the no-op of the unrecognised encodings
(44_unrecognised R79) and the stopped core (40_fetch R57, R64). -/

namespace Sys2Proof.Machine

/-- The no-op: the Execute stage changes nothing; the fetch has already advanced the pc (R79). It is the same
for every class of R80 to R85. -/
def execUnrecognised (_c : Unrecognised) (s : State) : Host.Outcome State Fault Refusal := .next s

/-- The stopped core keeps all its state, and its stop is no fault (R57, R64; DESIGN CHOICE, log entry 3). -/
def stopStep (s : State) : Host.Outcome State Fault Refusal := .next s

end Sys2Proof.Machine
end

