-- ==== Sys2Proof/Machine/Step.lean ====
section
/-! DEFINITION. One step: fetch, decode, execute (40_fetch R59), and its outcome label (R68). -/

namespace Sys2Proof.Machine

/-- The Execute stage on what the word selected (40_fetch R61). -/
def execute (d : Selected) (s : State) : Host.Outcome State Fault Refusal :=
  match d with
  | .instr i => exec i s
  | .unrecognised c => execUnrecognised c s

/-- One step (R59). A stopped core takes none (R57). -/
def step (s : State) : Host.Outcome State Fault Refusal :=
  match s.fetch with
  | some (w, s1) => execute (decode w) s1
  | none => stopStep s

/-- The outcome label of the step about to be taken (R68, D13); `none` when the core is stopped. -/
def stepLabel (s : State) : Option Label :=
  match s.fetch with
  | some (w, _) => some (decode w).label
  | none => none

/-- The state with the table word `w` of `nbits` bits standing at the pc, where `step` fetches next; a stopped
core fetches nothing, and is left as it is (DESIGN CHOICE, log entry 11). -/
def State.withFetchWord (s : State) (nbits w : Nat) : State :=
  s.placeWord s.pc.toNat (BitVec.ofNat 32 (w % 2 ^ nbits))

end Sys2Proof.Machine
end

