-- ==== Sys2Proof/Machine/Asm.lean ====
section
/-! DEFINITION. Notation, no hardware: the assembly spelling of 30_encoding R55 and the pseudo-instructions of
R56, from general knowledge of RISC-V (PRESUMED, log entry 21). -/

namespace Sys2Proof.Machine

/-- `x0` to `x31`. -/
def regName (r : RegIdx) : String := "x" ++ toString r.toNat

/-- The spelling of an instruction (R55): capitals, destination first, immediates in decimal; LUI and AUIPC
show the 20-bit field, every other immediate is the decoded value. -/
def asm : Instr → String
  | .lui rd imm => "LUI " ++ regName rd ++ ", " ++ toString (bits imm 31 12).toNat
  | .auipc rd imm => "AUIPC " ++ regName rd ++ ", " ++ toString (bits imm 31 12).toNat
  | .jal rd imm => "JAL " ++ regName rd ++ ", " ++ toString imm.toInt
  | .jalr rd rs1 _ imm => "JALR " ++ regName rd ++ ", " ++ regName rs1 ++ ", " ++ toString imm.toInt
  | .addi rd rs1 imm => "ADDI " ++ regName rd ++ ", " ++ regName rs1 ++ ", " ++ toString imm.toInt
  | .add rd rs1 rs2 => "ADD " ++ regName rd ++ ", " ++ regName rs1 ++ ", " ++ regName rs2
  | .sub rd rs1 rs2 => "SUB " ++ regName rd ++ ", " ++ regName rs1 ++ ", " ++ regName rs2

/-- The pseudo-instructions of R56; `liSmall` is `li` with an immediate of 12 bits. -/
inductive Pseudo where
  | nop
  | mv (rd rs : RegIdx)
  | liSmall (rd : RegIdx) (imm : Word)
  | li (rd : RegIdx) (imm : Word)
  | neg (rd rs : RegIdx)
  | j (imm : Word)
  | jal (imm : Word)
  | jr (rs : RegIdx)
  | jalr (rs : RegIdx)
  | ret
  deriving DecidableEq, Repr

/-- The instructions a pseudo-instruction stands for (R56). -/
def expand : Pseudo → List Instr
  | .nop => [.addi 0#5 0#5 0#32]
  | .mv rd rs => [.addi rd rs 0#32]
  | .liSmall rd imm => [.addi rd 0#5 imm]
  | .li rd imm => [.lui rd ((imm + 0x800#32) &&& 0xFFFFF000#32), .addi rd rd ((bits imm 11 0).signExtend 32)]
  | .neg rd rs => [.sub rd 0#5 rs]
  | .j imm => [.jal 0#5 imm]
  | .jal imm => [.jal 1#5 imm]
  | .jr rs => [.jalr 0#5 rs 0#3 0#32]
  | .jalr rs => [.jalr 1#5 rs 0#3 0#32]
  | .ret => [.jalr 0#5 1#5 0#3 0#32]

end Sys2Proof.Machine
end

