-- ==== Sys2Proof/Machine/Datapath.lean ====
section
/-! DEFINITION. The blocks and signals of 40_fetch R67 (the spec's own names, informative: D12, UNVERIFIED, log entry 16),
and one clock edge computed from them. -/

namespace Sys2Proof.Machine

/-- The signals of R67 while the core is not stopped. -/
structure Signals where
  imemAddr : Word
  imemRdata : Word
  pcInc : Word
  dec : Decoded
  rfRaddr1 : RegIdx
  rfRdata1 : Word
  rfRaddr2 : RegIdx
  rfRdata2 : Word
  rfWe : Bool
  rfWaddr : RegIdx
  rfWdata : Word
  pcJump : Bool
  pcTarget : Word
  retired : Label
  deriving DecidableEq, Repr

/-- The write-back value (40_fetch R62): `imm`, `pc1 + imm`, `pc1` or the ALU's result. -/
def writeBackData (l : Label) (pcInc rdata1 rdata2 imm : Word) : Word :=
  match l with
  | .lui => imm
  | .auipc => aluAdd pcInc imm
  | .jal => pcInc
  | .jalr => pcInc
  | .addi => aluAdd rdata1 imm
  | .add => aluAdd rdata1 rdata2
  | .sub => aluSub rdata1 rdata2
  | .noop => 0#32

/-- The base JALR adds to: the register as read at the start of the step, except that with `rd = rs1` the link
just written is seen (10_state R12, 42_jumps R72 (a)), unless the write was discarded. -/
def jalrBase (s : State) (d : Decoded) (pcInc : Word) : Word :=
  if d.rd = d.rs1 ∧ s.hardwired d.rd = false then pcInc else s.readReg d.rs1

/-- The jump target (40_fetch R63): of JALR for JALR, else JAL's sum. -/
def jumpTarget (l : Label) (s : State) (d : Decoded) (pcInc : Word) : Word :=
  match l with
  | .jalr => jalrTarget (jalrBase s d pcInc) d.imm
  | _ => aluAdd pcInc d.imm

/-- What the blocks put on the signals in this step, from the state at its start; `none` while stopped. -/
def signals (s : State) : Option Signals :=
  if s.enabled then
    let insn := s.mem.read s.pc.toNat
    let d := decodeFields insn
    let l := (decode insn).label
    let pcInc := s.pc + 1#32
    let rdata1 := s.readReg d.rs1
    let rdata2 := s.readReg d.rs2
    some
      { imemAddr := s.pc
        imemRdata := insn
        pcInc := pcInc
        dec := d
        rfRaddr1 := d.rs1
        rfRdata1 := rdata1
        rfRaddr2 := d.rs2
        rfRdata2 := rdata2
        rfWe := l != .noop
        rfWaddr := d.rd
        rfWdata := writeBackData l pcInc rdata1 rdata2 d.imm
        pcJump := l == .jal || l == .jalr
        pcTarget := jumpTarget l s d pcInc
        retired := l }
  else none

/-- One rising edge of `clk` of a started core: reset while `rst`, else one step unless stopped (R67). -/
def clockEdge (rst : Bool) (s : State) : State :=
  if rst then State.resetWith s.config
  else
    match signals s with
    | none => s
    | some g =>
      let written := if g.rfWe then s.writeReg g.rfWaddr g.rfWdata else s
      written.setPc (if g.pcJump then g.pcTarget else g.pcInc)

end Sys2Proof.Machine
end

