-- ==== Sys2Proof/Machine/Run.lean ====
section
/-! DEFINITION. Runs (40_fetch R57, R64 to R66): several steps, a run under fuel, and the labels of its steps. -/

namespace Sys2Proof.Machine

/-- `n` applications of `step`; a stopped core stays as it is. -/
def stepN : Nat → State → Host.Outcome State Fault Refusal
  | 0, s => .next s
  | n + 1, s =>
    match step s with
    | .next t => stepN n t
    | .fault f => .fault f
    | .refused r => .refused r

/-- How a run under fuel ends: in the stopped state (R64), or with the fuel used up first (R66). -/
inductive RunEnd where
  | stopped (s : State)
  | outOfFuel (s : State)
  deriving DecidableEq, Repr

/-- `run()`: steps while the pc is a valid index (R57), at most `n` of them; it ends in the first stopped
state (R64). -/
def run : Nat → State → Host.Outcome RunEnd Fault Refusal
  | 0, s => .next (if s.stopped then .stopped s else .outOfFuel s)
  | n + 1, s =>
    if s.stopped then .next (.stopped s)
    else
      match step s with
      | .next t => run n t
      | .fault f => .fault f
      | .refused r => .refused r

/-- The labels of the steps a run of at most `n` steps takes (R68). -/
def labels : Nat → State → List Label
  | 0, _ => []
  | n + 1, s =>
    match stepLabel s, step s with
    | some l, .next t => l :: labels n t
    | _, _ => []

/-- The diagnostic count of no-ops R68 allows. -/
def noopCount (n : Nat) (s : State) : Nat := (labels n s).count .noop

end Sys2Proof.Machine
end

