-- ==== Sys2Proof/Machine/Session.lean ====
section
/-! DEFINITION. The host's side (70_reset R96 to R99, R107; 10_state R23): which moves a host has, and when. -/

namespace Sys2Proof.Machine

/-- A constructed core and whether its `run()` has started and not yet returned. `running` belongs to the host
interface, not to the architectural state (10_state R9). -/
structure Session where
  core : State
  running : Bool
  deriving DecidableEq, Repr

/-- The moves of the boot order (R99); `clock` is one step of a started run. -/
inductive HostMove where
  | reset
  | load (words : List Word)
  | start
  | clock
  deriving DecidableEq, Repr

/-- Why the boundary turns a host move away. No instruction raises these. -/
inductive HostError where
  /-- A load or a start during a run (R107, D11; UNVERIFIED, log entry 14). -/
  | busy
  /-- The load failed (R98). -/
  | load (e : LoadError)
  /-- A read-back before the stop (10_state R23). -/
  | notStopped
  /-- A step was refused; never raised, since no arm of `exec` refuses. -/
  | step (r : Refusal)
  deriving DecidableEq, Repr

/-- Construction and reset (R99, steps 1 and 2). -/
def Session.construct (c : Config) : Session := { core := State.resetWith c, running := false }

/-- One host move. Reset is accepted at any time (R96); a load or a start only outside a run (R107). A start
of a stopped core returns at once with no step (40_fetch R64, D16). A run is over the instant the pc leaves
memory (R57). -/
def Session.move (x : Session) : HostMove → Except HostError Session
  | .reset => .ok (Session.construct x.core.config)
  | .load words =>
    if x.running then .error .busy
    else
      match loadProgram words x.core with
      | .ok s => .ok { x with core := s }
      | .error e => .error (.load e)
  | .start => if x.running then .error .busy else .ok { x with running := x.core.enabled }
  | .clock =>
    if x.running then
      match step x.core with
      | .next t => .ok { core := t, running := t.enabled }
      | .fault f => nomatch f
      | .refused r => .error (.step r)
    else .ok x

/-- Moves in order, up to the first that is turned away. -/
def Session.moves : List HostMove → Session → Except HostError Session
  | [], x => .ok x
  | m :: ms, x =>
    match x.move m with
    | .ok y => Session.moves ms y
    | .error e => .error e

/-- The host reads the 32 registers after the stop (10_state R23). -/
def Session.readBack (x : Session) : Except HostError (Vector Word 32) :=
  if x.running || x.core.enabled then .error .notStopped else .ok x.core.registerView

end Sys2Proof.Machine
end

