-- ==== Sys2Proof/Safety.lean ====
section
/-! DEFINITION. The terms claims are stated in: the invariant of the state, what a step writes and leaves
alone, which registers an instruction reads, which words jump. -/

namespace Sys2Proof.Machine

/-- The invariant of the state: memory in its canonical form and inside `MEM_WORDS`, and a hardwired register 0
still at its reset value (10_state R11). -/
structure State.Inv (s : State) : Prop where
  mem : s.mem.wf s.config.memWords.val
  zero : s.config.x0Hardwired = true → s.regs[0] = 0#32

/-- The invariant of a host session: a running core is not stopped. -/
structure Session.Inv (x : Session) : Prop where
  core : x.core.Inv
  running : x.running = true → x.core.enabled = true

/-- From `s` to `t`, `v` is written to register `rd` (discarded, with the register reading 0, when `rd` is the
hardwired register 0), the pc becomes `target`, and nothing else changes: no other register, no word of memory,
no parameter. There is no other state (10_state R9). -/
structure OnlyWrites (s t : State) (rd : RegIdx) (v target : Word) : Prop where
  written : t.readReg rd = if s.hardwired rd then 0#32 else v
  others : ∀ r, r ≠ rd → t.readReg r = s.readReg r
  pc : t.pc = target
  mem : ∀ a, t.memRead a = s.memRead a
  config : t.config = s.config

/-- The registers an instruction reads (10_state R12). -/
def sources : Instr → List RegIdx
  | .lui _ _ => []
  | .auipc _ _ => []
  | .jal _ _ => []
  | .jalr _ rs1 _ _ => [rs1]
  | .addi _ rs1 _ => [rs1]
  | .add _ rs1 rs2 => [rs1, rs2]
  | .sub _ rs1 rs2 => [rs1, rs2]

/-- The value an instruction writes back (40_fetch R62), in a state whose pc is `pc1`. -/
def writeBackValue (s : State) : Instr → Word
  | .lui _ imm => imm
  | .auipc _ imm => s.pc + imm
  | .jal _ _ => s.pc
  | .jalr _ _ _ _ => s.pc
  | .addi _ rs1 imm => s.readReg rs1 + imm
  | .add _ rs1 rs2 => s.readReg rs1 + s.readReg rs2
  | .sub _ rs1 rs2 => s.readReg rs1 - s.readReg rs2

/-- The word is a JAL or a JALR. -/
def isJump (w : Word) : Bool := (decode w).label == .jal || (decode w).label == .jalr

/-- The mask of an instruction's row in the table of 30_encoding R50. -/
def rowMask : Instr → Word
  | .lui _ _ => 0x0000007F#32
  | .auipc _ _ => 0x0000007F#32
  | .jal _ _ => 0x0000007F#32
  | .jalr _ _ _ _ => 0x0000007F#32
  | .addi _ _ _ => 0x0000707F#32
  | .add _ _ _ => 0xFE00707F#32
  | .sub _ _ _ => 0xFE00707F#32

/-- The match of an instruction's row in the table of 30_encoding R50. -/
def rowMatch : Instr → Word
  | .lui _ _ => 0x00000037#32
  | .auipc _ _ => 0x00000017#32
  | .jal _ _ => 0x0000006F#32
  | .jalr _ _ _ _ => 0x00000067#32
  | .addi _ _ _ => 0x00000013#32
  | .add _ _ _ => 0x00000033#32
  | .sub _ _ _ => 0x40000033#32

end Sys2Proof.Machine
end

