-- ==== Sys2Proof/Certificates/Slice0/Obligations.lean ====
section
/-! DEFINITION. The statements for the provers. In a statement over `exec`, the state `s` is the one after the
fetch's increment, so `s.pc` is `pc1` (40_fetch R60). In a statement over `step`, `s` is the state before the
fetch and `s.memRead s.pc.toNat = some w` says that the pc is a valid index and `w` is the word there. -/

open Sys2Proof Sys2Proof.Machine

/-! ## The Decode stage -/

/-- 30_encoding R39: the six fields stand at fixed positions of every word, whatever its opcode. -/
def Obligations.FieldsAtFixedPositions : Prop :=
  ∀ w : Word,
    (decodeFields w).opcode = w.extractLsb' 0 7 ∧ (decodeFields w).rd = w.extractLsb' 7 5 ∧
      (decodeFields w).funct3 = w.extractLsb' 12 3 ∧ (decodeFields w).rs1 = w.extractLsb' 15 5 ∧
      (decodeFields w).rs2 = w.extractLsb' 20 5 ∧ (decodeFields w).funct7 = w.extractLsb' 25 7

/-- 30_encoding R45: the I-type immediate bit by bit, its two equivalent forms, its range, its examples. -/
def Obligations.ITypeImmediateSignExtended : Prop :=
  (∀ w : Word, w.extractLsb' 0 7 = opAluImm ∨ w.extractLsb' 0 7 = opJalr →
    (decodeFields w).imm = (w.extractLsb' 20 12).signExtend 32 ∧
      (decodeFields w).imm = w.sshiftRight 20 ∧
      (decodeFields w).imm.extractLsb' 0 12 = w.extractLsb' 20 12 ∧
      (∀ k, 12 ≤ k → k < 32 → (decodeFields w).imm.getLsbD k = w.getLsbD 31) ∧
      -2048 ≤ (decodeFields w).imm.toInt ∧ (decodeFields w).imm.toInt ≤ 2047) ∧
    (decodeFields 0x00500113#32).imm = 0x00000005#32 ∧ (decodeFields 0xFFF00113#32).imm = 0xFFFFFFFF#32

/-- 30_encoding R46: the U-type immediate is the word with its low 12 bits masked. -/
def Obligations.UTypeImmediateMasked : Prop :=
  (∀ w : Word, w.extractLsb' 0 7 = opLui ∨ w.extractLsb' 0 7 = opAuipc →
    (decodeFields w).imm = w &&& 0xFFFFF000#32 ∧
      (decodeFields w).imm.extractLsb' 12 20 = w.extractLsb' 12 20 ∧
      (decodeFields w).imm.extractLsb' 0 12 = 0#12) ∧
    (decodeFields 0x123452B7#32).imm = 0x12345000#32

/-- The J-type immediate bit by bit (30_encoding section 4): the four groups of bits, the zero, the sign copies,
its range and its examples. That it counts words is the spec's decision D1 and is not part of this statement. -/
def Obligations.JTypeImmediateReassembled : Prop :=
  (∀ w : Word, w.extractLsb' 0 7 = opJal →
    (decodeFields w).imm.getLsbD 0 = false ∧
      (decodeFields w).imm.extractLsb' 1 10 = w.extractLsb' 21 10 ∧
      (decodeFields w).imm.getLsbD 11 = w.getLsbD 20 ∧
      (decodeFields w).imm.extractLsb' 12 8 = w.extractLsb' 12 8 ∧
      (∀ k, 20 ≤ k → k < 32 → (decodeFields w).imm.getLsbD k = w.getLsbD 31) ∧
      -1048576 ≤ (decodeFields w).imm.toInt ∧ (decodeFields w).imm.toInt ≤ 1048574) ∧
    (decodeFields 0x008000EF#32).imm = 0x00000008#32 ∧ (decodeFields 0xFFDFF06F#32).imm = 0xFFFFFFFC#32

/-- 30_encoding R48: every opcode outside the five has a zero immediate (`ALU_REG` among them), and for such a
record the dispatch does not read it. -/
def Obligations.OtherOpcodesHaveZeroImmediate : Prop :=
  (∀ w : Word, w.extractLsb' 0 7 ∉ [opAluImm, opJalr, opAuipc, opLui, opJal] → (decodeFields w).imm = 0#32) ∧
    opAluReg ∉ [opAluImm, opJalr, opAuipc, opLui, opJal] ∧
    ∀ (d : Decoded) (v : Word), d.opcode ∉ [opAluImm, opJalr, opAuipc, opLui, opJal] →
      select { d with imm := v } = select d

/-! ## Selection and encoding -/

/-- The table of 30_encoding R50: each row selects its instruction by mask and match alone (so JALR with every
`funct3`), and a word of no row is an unrecognised encoding. Four of the matches rest on opcode values from
general knowledge (D5; log entry 7). -/
def Obligations.SelectionByMaskAndMatch : Prop :=
  ∀ w : Word,
    ((w &&& 0x0000007F#32 = 0x00000037#32) ↔ decode w = .instr (.lui (w.extractLsb' 7 5) (immU w))) ∧
      ((w &&& 0x0000007F#32 = 0x00000017#32) ↔ decode w = .instr (.auipc (w.extractLsb' 7 5) (immU w))) ∧
      ((w &&& 0x0000007F#32 = 0x0000006F#32) ↔ decode w = .instr (.jal (w.extractLsb' 7 5) (immJ w))) ∧
      ((w &&& 0x0000007F#32 = 0x00000067#32) ↔
        decode w = .instr (.jalr (w.extractLsb' 7 5) (w.extractLsb' 15 5) (w.extractLsb' 12 3) (immI w))) ∧
      ((w &&& 0x0000707F#32 = 0x00000013#32) ↔
        decode w = .instr (.addi (w.extractLsb' 7 5) (w.extractLsb' 15 5) (immI w))) ∧
      ((w &&& 0xFE00707F#32 = 0x00000033#32) ↔
        decode w = .instr (.add (w.extractLsb' 7 5) (w.extractLsb' 15 5) (w.extractLsb' 20 5))) ∧
      ((w &&& 0xFE00707F#32 = 0x40000033#32) ↔
        decode w = .instr (.sub (w.extractLsb' 7 5) (w.extractLsb' 15 5) (w.extractLsb' 20 5))) ∧
      ((∃ c, decode w = .unrecognised c) ↔ ∀ i : Instr, w &&& rowMask i ≠ rowMatch i)

/-- 40_fetch section 4 (R61): the dispatch on a decoded record, arm by arm, the last arm being the no-op. The
four opcode values named by D5 are the spec's from general knowledge (log entry 7). -/
def Obligations.DispatchArmByArm : Prop :=
  ∀ (d : Decoded) (i : Instr), select d = some i ↔
    match i with
    | .lui rd imm => d.opcode = 0x37#7 ∧ rd = d.rd ∧ imm = d.imm
    | .auipc rd imm => d.opcode = 0x17#7 ∧ rd = d.rd ∧ imm = d.imm
    | .jal rd imm => d.opcode = 0x6F#7 ∧ rd = d.rd ∧ imm = d.imm
    | .jalr rd rs1 funct3 imm =>
      d.opcode = 0x67#7 ∧ rd = d.rd ∧ rs1 = d.rs1 ∧ funct3 = d.funct3 ∧ imm = d.imm
    | .addi rd rs1 imm => d.opcode = 0x13#7 ∧ d.funct3 = 0b000#3 ∧ rd = d.rd ∧ rs1 = d.rs1 ∧ imm = d.imm
    | .add rd rs1 rs2 =>
      d.opcode = 0x33#7 ∧ d.funct3 = 0b000#3 ∧ d.funct7 = 0b0000000#7 ∧ rd = d.rd ∧ rs1 = d.rs1 ∧ rs2 = d.rs2
    | .sub rd rs1 rs2 =>
      d.opcode = 0x33#7 ∧ d.funct3 = 0b000#3 ∧ d.funct7 = 0b0100000#7 ∧ rd = d.rd ∧ rs1 = d.rs1 ∧ rs2 = d.rs2

/-- Decode of encode is the instruction, for every well-formed instruction with every operand at every value the
encoding admits (30_encoding sections 2, 4 and 5). -/
def Obligations.DecodeOfEncode : Prop :=
  ∀ i : Instr, i.wellFormed = true → decode (encode i) = .instr i

/-- Encode of decode is the word, for every word that is one of the seven instructions; and what a word decodes
to is well-formed. So no bit of such a word is dropped. The encoder is the model's own. -/
def Obligations.EncodeOfDecode : Prop :=
  ∀ (w : Word) (i : Instr), decode w = .instr i → encode i = w ∧ i.wellFormed = true

/-- A few words of the spec decode to the instructions they stand for (95_test_vectors, section 2.1 and Part 1). -/
def Obligations.SpecWordsDecode : Prop :=
  decode 0x00500113#32 = .instr (.addi 2#5 0#5 5#32) ∧ decode 0x003101B3#32 = .instr (.add 3#5 2#5 3#5) ∧
    decode 0x402181B3#32 = .instr (.sub 3#5 3#5 2#5) ∧ decode 0x008000EF#32 = .instr (.jal 1#5 8#32) ∧
    decode 0x00C100E7#32 = .instr (.jalr 1#5 2#5 0#3 12#32) ∧
    decode 0x123452B7#32 = .instr (.lui 5#5 0x12345000#32) ∧
    decode 0xFFFFF417#32 = .instr (.auipc 8#5 0xFFFFF000#32) ∧ decode 0x00012183#32 = .unrecognised .load

/-! ## The step -/

/-- The run condition (40_fetch section 1, R57): a step is enabled exactly when the pc, unsigned, is below
`MEM_WORDS`; with no memory it never is; the test depends on the pc alone; in the stopped state no fetch is made
and no state changes. The clauses over `stepLabel` rest on the spec's own device D13 (log entry 15), and the form
of a stopped core's step is the model's choice (D8; log entry 3). -/
def Obligations.RunConditionIsPcBelowMemWords : Prop :=
  (∀ s : State, (s.enabled = true ↔ s.pc.toNat < s.config.memWords.val) ∧ (s.stopped = true ↔ ¬ s.enabled = true)) ∧
    (∀ s : State, s.config.memWords.val = 0 → s.enabled = false) ∧
    (∀ (s t : State), s.pc = t.pc → s.config.memWords = t.config.memWords → s.enabled = t.enabled) ∧
    (∀ s : State, s.enabled = true → ∃ w, s.memRead s.pc.toNat = some w ∧
      step s = execute (decode w) (s.setPc (s.pc + 1#32)) ∧ stepLabel s = some (decode w).label) ∧
    ∀ s : State, s.stopped = true → s.fetch = none ∧ stepLabel s = none ∧ ∀ t, step s = .next t → t = s

/-- The stopped core answers the same state, for ever: the stop is no fault and nothing the core does leaves it
(40_fetch section 5, D8). That a step of a stopped core answers `next` is the model's choice (log entry 3). -/
def Obligations.StopIsFinal : Prop :=
  ∀ (n : Nat) (s : State), s.stopped = true → stepN n s = .next s ∧ run n s = .next (.stopped s)

/-- 40_fetch R58: the fetch reads the word at the pc and advances the pc by 1, and changes nothing else; for a
word that is an unrecognised encoding this is the only state change of the step. -/
def Obligations.FetchReadsAndAdvancesByOne : Prop :=
  ∀ (s : State) (w : Word), s.memRead s.pc.toNat = some w →
    ∃ s1, s.fetch = some (w, s1) ∧ s1.pc = s.pc + 1#32 ∧ s1.regs = s.regs ∧ s1.mem = s.mem ∧
      s1.config = s.config ∧ ∀ c, decode w = .unrecognised c → step s = .next s1

/-- 40_fetch R59: a step runs the instruction decoded from the word at the pc, in the state whose pc the fetch
has advanced; an unrecognised word's step ends with that state; afterwards the pc is `pc1` unless the word was
a JAL or a JALR. -/
def Obligations.StepRunsDecodedInstruction : Prop :=
  ∀ (s : State) (w : Word), s.memRead s.pc.toNat = some w →
    (∀ i, decode w = .instr i → step s = exec i (s.setPc (s.pc + 1#32))) ∧
      (∀ c, decode w = .unrecognised c → step s = .next (s.setPc (s.pc + 1#32))) ∧
      ∀ t, step s = .next t → isJump w = false → t.pc = s.pc + 1#32

/-- Every step answers a next state: no fault, no refusal, no trap (60_exceptions sections 1 to 3), and the pc
is one of the values of 10_state section 3: `pc1`, JAL's `pc1 + imm`, or JALR's even target. The modulus is D2
(log entry 4), the base of JALR is D7 (log entry 8). That a stopped core's step answers `next` of the same state is
the model's choice (D8; log entry 3): the spec says that no step is enabled there. -/
def Obligations.EveryStepCompletesAtAKnownPc : Prop :=
  ∀ s : State, ∃ t, step s = .next t ∧
    (s.stopped = true → t = s) ∧
    ∀ w, s.memRead s.pc.toNat = some w →
      (isJump w = false → t.pc = s.pc + 1#32) ∧
        (∀ rd imm, decode w = .instr (.jal rd imm) → t.pc = s.pc + 1#32 + imm) ∧
        ∀ rd rs1 funct3 imm, decode w = .instr (.jalr rd rs1 funct3 imm) →
          t.pc = (t.readReg rs1 + imm) &&& 0xFFFFFFFE#32

/-- 40_fetch R62: each of the seven instructions ends with one write to `x[rd]`, of the value the rule lists, and
to no other register; with `X0_HARDWIRED = false` this holds of `rd = 0` like any other; a no-op writes nothing;
the registers are written by the Execute stage only. -/
def Obligations.OneWriteBackPerInstruction : Prop :=
  (∀ (i : Instr) (s : State), ∃ t, exec i s = .next t ∧
    t.readReg i.rd = (if s.hardwired i.rd then 0#32 else writeBackValue s i) ∧
      ∀ r, r ≠ i.rd → t.readReg r = s.readReg r) ∧
    (∀ (i : Instr) (s : State), s.config.x0Hardwired = false →
      ∃ t, exec i s = .next t ∧ t.readReg i.rd = writeBackValue s i) ∧
    (∀ (c : Unrecognised) (s : State), ∃ t, execute (.unrecognised c) s = .next t ∧ t.regs = s.regs) ∧
    ∀ (s s1 : State) (w : Word), s.fetch = some (w, s1) → s1.regs = s.regs

/-- The outcome label (40_fetch section 6, D13; log entry 15) is that of the arm taken, and it is `NOOP` exactly
for the words whose step changes the pc by 1 and nothing else because they are unrecognised. -/
def Obligations.LabelNamesTheArm : Prop :=
  ∀ (s : State) (w : Word), s.memRead s.pc.toNat = some w →
    (stepLabel s = some .noop ↔ ∃ c, decode w = .unrecognised c) ∧
      ∀ i, decode w = .instr i → stepLabel s = some (match i with
        | .lui .. => .lui
        | .auipc .. => .auipc
        | .jal .. => .jal
        | .jalr .. => .jalr
        | .addi .. => .addi
        | .add .. => .add
        | .sub .. => .sub)

/-! ## The instructions: result, frame, completion -/

/-- LUI completes with `x[rd] <- imm` and nothing else (41_upper, R69), over the instruction and over its word.
Its opcode value is from general knowledge (D5; log entry 7). -/
def Obligations.LuiLoadsImmediate : Prop :=
  (∀ (rd : RegIdx) (imm : Word) (s : State), ∃ t, exec (.lui rd imm) s = .next t ∧ OnlyWrites s t rd imm s.pc) ∧
    ∀ (s : State) (w : Word), s.memRead s.pc.toNat = some w → w &&& 0x0000007F#32 = 0x00000037#32 →
      ∃ t, step s = .next t ∧ OnlyWrites s t (w.extractLsb' 7 5) (w &&& 0xFFFFF000#32) (s.pc + 1#32)

/-- AUIPC completes with `x[rd] <- pc1 + imm` and nothing else (41_upper, R70), where `pc1` is the index of the
AUIPC plus one. Its opcode value is from general knowledge (D5; log entry 7). -/
def Obligations.AuipcAddsToNextIndex : Prop :=
  (∀ (rd : RegIdx) (imm : Word) (s : State), ∃ t, exec (.auipc rd imm) s = .next t ∧
    OnlyWrites s t rd (s.pc + imm) s.pc) ∧
    ∀ (s : State) (w : Word), s.memRead s.pc.toNat = some w → w &&& 0x0000007F#32 = 0x00000017#32 →
      ∃ t, step s = .next t ∧
        OnlyWrites s t (w.extractLsb' 7 5) (s.pc + 1#32 + (w &&& 0xFFFFF000#32)) (s.pc + 1#32)

/-- JAL completes with `x[rd] <- pc1; pc <- pc1 + imm` and nothing else (42_jumps, R71), with the document's
example: fetched from index 4 with immediate 8 it links 5 and continues at 13 (C2). Its opcode value is from
general knowledge (D5; log entry 7), the modulus is D2 (log entry 4). -/
def Obligations.JalLinksAndJumps : Prop :=
  (∀ (rd : RegIdx) (imm : Word) (s : State), ∃ t, exec (.jal rd imm) s = .next t ∧
    OnlyWrites s t rd s.pc (s.pc + imm)) ∧
    (∀ (s : State) (w : Word), s.memRead s.pc.toNat = some w → w &&& 0x0000007F#32 = 0x0000006F#32 →
      ∃ t, step s = .next t ∧
        OnlyWrites s t (w.extractLsb' 7 5) (s.pc + 1#32) (s.pc + 1#32 + immJ w)) ∧
    ∀ s : State, s.pc = 4#32 → s.memRead 4 = some 0x008000EF#32 →
      ∃ t, step s = .next t ∧ t.readReg 1#5 = 5#32 ∧ t.pc = 13#32

/-- JALR completes with `x[rd] <- pc1`, then `pc <- (x[rs1] + imm) & ~1`, and nothing else, for every `funct3`
(42_jumps, R72). With `rd = rs1` the base is the link just written (0 where `rd` is the hardwired register 0):
that order is the spec's decision D7 (log entry 8). Its opcode value is from general knowledge (D5; log
entry 7). -/
def Obligations.JalrLinksThenJumps : Prop :=
  (∀ (rd rs1 : RegIdx) (funct3 : BitVec 3) (imm : Word) (s : State),
    ∃ t, exec (.jalr rd rs1 funct3 imm) s = .next t ∧
      OnlyWrites s t rd s.pc
        (((if rd = rs1 then (if s.hardwired rd then 0#32 else s.pc) else s.readReg rs1) + imm) &&&
          0xFFFFFFFE#32)) ∧
    ∀ (s : State) (w : Word), s.memRead s.pc.toNat = some w → w &&& 0x0000007F#32 = 0x00000067#32 →
      ∃ t, step s = .next t ∧
        OnlyWrites s t (w.extractLsb' 7 5) (s.pc + 1#32)
          (((if w.extractLsb' 7 5 = w.extractLsb' 15 5 then
                (if s.hardwired (w.extractLsb' 7 5) then 0#32 else s.pc + 1#32)
              else s.readReg (w.extractLsb' 15 5)) + (w.extractLsb' 20 12).signExtend 32) &&& 0xFFFFFFFE#32)

/-- 43_alu R75: ADDI completes with `x[rd] <- x[rs1] + imm` and nothing else, over the instruction and over its
word; a word with its opcode and another `funct3` is no instruction; `0x00000013` changes no register in either
setting of `X0_HARDWIRED`; the document's example. -/
def Obligations.AddiAddsImmediate : Prop :=
  (∀ (rd rs1 : RegIdx) (imm : Word) (s : State), ∃ t, exec (.addi rd rs1 imm) s = .next t ∧
    OnlyWrites s t rd (s.readReg rs1 + imm) s.pc) ∧
    (∀ (s : State) (w : Word), s.memRead s.pc.toNat = some w → w &&& 0x0000707F#32 = 0x00000013#32 →
      ∃ t, step s = .next t ∧
        OnlyWrites s t (w.extractLsb' 7 5)
          (s.readReg (w.extractLsb' 15 5) + (w.extractLsb' 20 12).signExtend 32) (s.pc + 1#32)) ∧
    (∀ w : Word, w.extractLsb' 0 7 = 0x13#7 → w.extractLsb' 12 3 ≠ 0b000#3 → ∀ i, decode w ≠ .instr i) ∧
    (∀ s : State, s.memRead s.pc.toNat = some 0x00000013#32 →
      ∃ t, step s = .next t ∧ ∀ r, t.readReg r = s.readReg r) ∧
    ∃ t, step (State.reset.withFetchWord 32 0x00500113) = .next t ∧ t.readReg 2#5 = 5#32 ∧ t.pc = 1#32 ∧
      ∀ r, r ≠ 2#5 → t.readReg r = 0#32

/-- 43_alu R76: ADD completes with `x[rd] <- x[rs1] + x[rs2]` and nothing else, over the instruction and over its
word, whose immediate decodes to 0; the document's example. -/
def Obligations.AddAddsRegisters : Prop :=
  (∀ (rd rs1 rs2 : RegIdx) (s : State), ∃ t, exec (.add rd rs1 rs2) s = .next t ∧
    OnlyWrites s t rd (s.readReg rs1 + s.readReg rs2) s.pc) ∧
    (∀ (s : State) (w : Word), s.memRead s.pc.toNat = some w → w &&& 0xFE00707F#32 = 0x00000033#32 →
      (decodeFields w).imm = 0#32 ∧ ∃ t, step s = .next t ∧
        OnlyWrites s t (w.extractLsb' 7 5)
          (s.readReg (w.extractLsb' 15 5) + s.readReg (w.extractLsb' 20 5)) (s.pc + 1#32)) ∧
    ∀ s : State, s.readReg 2#5 = 5#32 → s.readReg 3#5 = 6#32 → s.memRead s.pc.toNat = some 0x003101B3#32 →
      ∃ t, step s = .next t ∧ t.readReg 3#5 = 11#32

/-- 43_alu R77: SUB completes with `x[rd] <- x[rs1] - x[rs2]` and nothing else, over the instruction and over its
word; with equal sources it gives 0; the document's example (whose word the spec derives: 0x402181B3). -/
def Obligations.SubSubtractsRegisters : Prop :=
  (∀ (rd rs1 rs2 : RegIdx) (s : State), ∃ t, exec (.sub rd rs1 rs2) s = .next t ∧
    OnlyWrites s t rd (s.readReg rs1 - s.readReg rs2) s.pc) ∧
    (∀ (s : State) (w : Word), s.memRead s.pc.toNat = some w → w &&& 0xFE00707F#32 = 0x40000033#32 →
      ∃ t, step s = .next t ∧
        OnlyWrites s t (w.extractLsb' 7 5)
          (s.readReg (w.extractLsb' 15 5) - s.readReg (w.extractLsb' 20 5)) (s.pc + 1#32)) ∧
    (∀ (rd rs : RegIdx) (s : State), ∃ t, exec (.sub rd rs rs) s = .next t ∧ t.readReg rd = 0#32) ∧
    ∀ s : State, s.readReg 2#5 = 5#32 → s.readReg 3#5 = 6#32 → s.memRead s.pc.toNat = some 0x402181B3#32 →
      ∃ t, step s = .next t ∧ t.readReg 3#5 = 1#32

/-- The no-op (44_unrecognised section 1, R79): a word outside the encodings the rule lists advances the pc and
changes nothing else, and is labelled `NOOP`; its example. Which words are outside rests on four opcode values
from general knowledge (D5; log entry 7). -/
def Obligations.UnrecognisedWordOnlyAdvancesPc : Prop :=
  (∀ (s : State) (w : Word), s.memRead s.pc.toNat = some w →
    w &&& 0x7F#32 ∉ [0x37#32, 0x17#32, 0x6F#32, 0x67#32] → w &&& 0x707F#32 ≠ 0x13#32 →
    w &&& 0xFE00707F#32 ∉ [0x00000033#32, 0x40000033#32] →
    step s = .next (s.setPc (s.pc + 1#32)) ∧ stepLabel s = some .noop) ∧
    ∀ s : State, s.pc = 7#32 → s.memRead 7 = some 0#32 → step s = .next (s.setPc 8#32)

/-- The classes of 44_unrecognised R80 to R85: each condition of a class makes the word a no-op, rejected under
the name of its class. The names of the classes are RV32I's, from general knowledge. -/
def Obligations.NoopClassesByEncoding : Prop :=
  (∀ w : Word, w.extractLsb' 0 7 = 0x13#7 → w.extractLsb' 12 3 ≠ 0b000#3 → decode w = .unrecognised .aluImm) ∧
    (∀ w : Word, w.extractLsb' 0 7 = 0x33#7 →
      (w.extractLsb' 12 3 ≠ 0b000#3 ∨ w.extractLsb' 25 7 ∉ [0b0000000#7, 0b0100000#7]) →
      decode w = .unrecognised .aluReg) ∧
    (∀ w : Word, w.extractLsb' 0 7 = 0x03#7 → decode w = .unrecognised .load) ∧
    (∀ w : Word, w.extractLsb' 0 7 = 0x23#7 → decode w = .unrecognised .store) ∧
    (∀ w : Word, w.extractLsb' 0 7 = 0x63#7 → decode w = .unrecognised .branch) ∧
    (∀ w : Word, w.extractLsb' 0 7 = 0x0F#7 → decode w = .unrecognised .miscMem) ∧
    (∀ w : Word, w.extractLsb' 0 7 = 0x73#7 → decode w = .unrecognised .system) ∧
    decode 0x00000000#32 = .unrecognised .zeroWord ∧ decode 0xFFFFFFFF#32 = .unrecognised .onesWord ∧
    ∀ w : Word, w ≠ 0x00000000#32 → w ≠ 0xFFFFFFFF#32 →
      w.extractLsb' 0 7 ∉ [0x13#7, 0x33#7, 0x37#7, 0x17#7, 0x6F#7, 0x67#7, 0x03#7, 0x23#7, 0x63#7, 0x0F#7, 0x73#7] →
      decode w = .unrecognised .otherOpcode

/-- The arithmetic laws (43_alu section 1): both operations are modulo 2^32, and give the same bits under the
signed reading; subtraction is addition of the complement and one. -/
def Obligations.ArithmeticWrapsModulo : Prop :=
  ∀ a b : Word,
    (aluAdd a b).toNat = (a.toNat + b.toNat) % 2 ^ 32 ∧
      (aluSub a b).toNat = (a.toNat + 2 ^ 32 - b.toNat) % 2 ^ 32 ∧
      aluSub a b = aluAdd (aluAdd a (~~~b)) 1#32 ∧
      (aluAdd a b).toInt % 2 ^ 32 = (a.toInt + b.toInt) % 2 ^ 32 ∧
      (aluSub a b).toInt % 2 ^ 32 = (a.toInt - b.toInt) % 2 ^ 32

/-! ## Registers -/

/-- Register 0 (10_state section 2, R11; the default and the switch are D4, log entry 6): without the switch it
is a register like any other; with it, it reads 0 and a write of it changes nothing. -/
def Obligations.RegisterZeroSwitch : Prop :=
  (∀ (s : State) (i : RegIdx) (v : Word), s.config.x0Hardwired = false →
    (s.writeReg i v).readReg i = v ∧ ∀ j, j ≠ i → (s.writeReg i v).readReg j = s.readReg j) ∧
    ∀ s : State, s.config.x0Hardwired = true →
      s.readReg 0#5 = 0#32 ∧ (∀ v, s.writeReg 0#5 v = s) ∧
        ∀ (i : RegIdx) (v : Word), i ≠ 0#5 →
          (s.writeReg i v).readReg i = v ∧ ∀ j, j ≠ i → (s.writeReg i v).readReg j = s.readReg j

/-- The switch changes nothing else (10_state section 2, D4): an instruction that neither writes nor reads
register 0 has the same effect in both settings. -/
def Obligations.SwitchOnlyConcernsRegisterZero : Prop :=
  ∀ (i : Instr) (s : State) (b : Bool), i.rd ≠ 0#5 → 0#5 ∉ sources i →
    ∃ t, exec i s = .next t ∧
      exec i { s with config := { s.config with x0Hardwired := b } } =
        .next { t with config := { t.config with x0Hardwired := b } }

/-- An instruction reads no register but its sources (10_state section 2, R12, which the spec derives): two states
with the same pc and parameters that agree on them give the same written value and the same pc. -/
def Obligations.OnlySourcesAreRead : Prop :=
  ∀ (i : Instr) (s t : State), s.pc = t.pc → s.config = t.config →
    (∀ r ∈ sources i, s.readReg r = t.readReg r) →
    ∃ s' t', exec i s = .next s' ∧ exec i t = .next t' ∧
      s'.readReg i.rd = t'.readReg i.rd ∧ s'.pc = t'.pc

/-- `funct3` of JALR is not tested (30_encoding section 5): all eight values act alike. -/
def Obligations.JalrIgnoresFunct3 : Prop :=
  (∀ (rd rs1 : RegIdx) (f g : BitVec 3) (imm : Word) (s : State),
    ∃ t, exec (.jalr rd rs1 f imm) s = .next t ∧ exec (.jalr rd rs1 g imm) s = .next t) ∧
    ∀ (v w : Word) (i : Instr), v &&& 0xFFFF8FFF#32 = w &&& 0xFFFF8FFF#32 → v &&& 0x7F#32 = 0x67#32 →
      decode v = .instr i → ∃ j, decode w = .instr j ∧ ∀ s, exec j s = exec i s

/-! ## Control transfer -/

/-- JALR reaches only even word indices (42_jumps section on R72 and R108, derived there): a return with
immediate 0 through a link value reaches the link value when it is even and the index before it when it is odd,
and no immediate reaches an odd one. -/
def Obligations.JalrReachesOnlyEvenIndices : Prop :=
  ∀ (rd rs1 : RegIdx) (funct3 : BitVec 3) (imm : Word) (s : State),
    ∃ t, exec (.jalr rd rs1 funct3 imm) s = .next t ∧ t.pc.getLsbD 0 = false ∧
      (rd ≠ rs1 → imm = 0#32 →
        (s.readReg rs1).toNat % 2 = 0 → t.pc = s.readReg rs1) ∧
      (rd ≠ rs1 → imm = 0#32 →
        (s.readReg rs1).toNat % 2 = 1 → t.pc = s.readReg rs1 - 1#32) ∧
      ((s.readReg rs1).toNat % 2 = 1 → t.pc ≠ s.readReg rs1)

/-- Only a JALR can leave the pc at the index of its own word (42_jumps section on R71 (b)): sequential flow goes
one further, and a JAL's offset is even, so it never reaches itself. -/
def Obligations.OnlyJalrCanRepeatItself : Prop :=
  ∀ (s : State) (w : Word), s.memRead s.pc.toNat = some w → (decode w).label ≠ .jalr →
    ∃ t, step s = .next t ∧ t.pc ≠ s.pc

/-- Without a JALR the path does not depend on the registers (42_jumps section on R73 (e)): two states with the
same pc and memory, whatever their registers and their switch, are at the same index after every number of steps. That `stepN` goes on
answering `next` through the stop is the model's choice (log entry 3). -/
def Obligations.PathIgnoresRegistersWithoutJalr : Prop :=
  ∀ (n : Nat) (s t : State), s.pc = t.pc → s.mem = t.mem → s.config.memWords = t.config.memWords →
    (∀ a w, s.memRead a = some w → (decode w).label ≠ .jalr) →
    ∃ s' t', stepN n s = .next s' ∧ stepN n t = .next t' ∧ s'.pc = t'.pc ∧ s'.enabled = t'.enabled

/-! ## Runs -/

/-- A memory without jumps is walked from index 0 to its end in exactly `MEM_WORDS` steps (40_fetch section 5,
R65, which the spec derives): every shorter run is unfinished, at the index equal to its number of steps. -/
def Obligations.JumpFreeRunTakesMemWordsSteps : Prop :=
  ∀ s : State, s.pc = 0#32 → (∀ a w, s.memRead a = some w → isJump w = false) →
    (∃ t, run s.config.memWords.val s = .next (.stopped t) ∧ t.pc.toNat = s.config.memWords.val) ∧
      ∀ n, n < s.config.memWords.val → ∃ t, run n s = .next (.outOfFuel t) ∧ t.pc.toNat = n

/-- Zero words to the end of memory are walked through without a change of any register (70_reset section 2,
R100 (a), which the spec derives). -/
def Obligations.ZeroTailLeavesRegisters : Prop :=
  ∀ s : State, s.enabled = true → (∀ a w, s.pc.toNat ≤ a → s.memRead a = some w → w = 0#32) →
    ∃ t, run (s.config.memWords.val - s.pc.toNat) s = .next (.stopped t) ∧ t.regs = s.regs ∧
      t.pc.toNat = s.config.memWords.val

/-- A run need not end (40_fetch section 5, R66; the shortest JAL loop of R71 (b)): a word that is no jump,
followed by a JAL of offset -2, is repeated for ever. -/
def Obligations.ShortestJalLoopNeverStops : Prop :=
  ∀ (s : State) (v w : Word) (rd : RegIdx), s.memRead s.pc.toNat = some v → isJump v = false →
    s.memRead (s.pc.toNat + 1) = some w → decode w = .instr (.jal rd (-2#32)) →
    ∀ n, ∃ t, run n s = .next (.outOfFuel t) ∧ t.pc = if n % 2 = 0 then s.pc else s.pc + 1#32

/-- Memory and parameters are constant over any number of steps (20_memory sections 3 and 7): every fetch of an
index returns the word the load left there. That the steps complete in the stopped state too is the model's choice
(log entry 3); nothing is said of how many steps a core takes. -/
def Obligations.MemoryConstantOverRuns : Prop :=
  ∀ (n : Nat) (s : State), ∃ t, stepN n s = .next t ∧ t.mem = s.mem ∧ t.config = s.config ∧
    ∀ a, t.memRead a = s.memRead a

/-! ## The invariant -/

/-- Every step, from any state that meets the invariant, gives a state that meets it: memory stays canonical and
inside `MEM_WORDS`, and a hardwired register 0 keeps its reset value (10_state section 2). -/
def Obligations.StepKeepsInvariant : Prop :=
  ∀ s t : State, s.Inv → step s = .next t → t.Inv

/-- The state after reset meets the invariant, in every construction. -/
def Obligations.ResetMeetsInvariant : Prop :=
  State.reset.Inv ∧ ∀ c : Config, (State.resetWith c).Inv

/-- The program load keeps the invariant. -/
def Obligations.LoadKeepsInvariant : Prop :=
  ∀ (ws : List Word) (s t : State), s.Inv → loadProgram ws s = .ok t → t.Inv

/-- Two memories in canonical form that read alike at every index are equal data. The form is the model's
(log entry 2). -/
def Obligations.CanonicalMemoryIsUnique : Prop :=
  ∀ (n : Nat) (m m' : Memory), m.wf n → m'.wf n → (∀ a, m.read a = m'.read a) → m = m'

/-! ## Reset, load and the host -/

/-- 10_state R22: after reset every register, the pc and every word of memory is 0; after the load of `n` words
the first `n` indices hold them and everything else is as reset left it. -/
def Obligations.ResetAndLoadedState : Prop :=
  ∀ c : Config,
    (State.resetWith c).pc = 0#32 ∧ (∀ i, (State.resetWith c).readReg i = 0#32) ∧
      (∀ i : Fin 32, (State.resetWith c).regs[i] = 0#32) ∧
      (∀ a, a < c.memWords.val → (State.resetWith c).memRead a = some 0#32) ∧
      ∀ ws : List Word, ws.length ≤ c.memWords.val → ∃ t, boot c ws = .ok t ∧
        t.pc = 0#32 ∧ (∀ i : Fin 32, t.regs[i] = 0#32) ∧ t.config = c ∧
        (∀ a (h : a < ws.length), t.memRead a = some ws[a]) ∧
        ∀ a, ws.length ≤ a → a < c.memWords.val → t.memRead a = some 0#32

/-- 70_reset R97: a load that fits copies the words to the indices from 0 and touches nothing else. The memory it
is applied to is in canonical form, which every reachable one is (`StepKeepsInvariant`, `LoadKeepsInvariant`). -/
def Obligations.LoadCopiesWordsFromZero : Prop :=
  ∀ (ws : List Word) (s : State), s.Inv → ws.length ≤ s.config.memWords.val →
    ∃ t, loadProgram ws s = .ok t ∧ t.regs = s.regs ∧ t.pc = s.pc ∧ t.config = s.config ∧
      (∀ a (h : a < ws.length), t.memRead a = some ws[a]) ∧
      (∀ a, ws.length ≤ a → t.memRead a = s.memRead a) ∧ (ws = [] → t = s)

/-- A load of more words than the memory has is refused (70_reset section 2, R98 by decision D10; log entry 13). -/
def Obligations.OverlongLoadRefused : Prop :=
  ∀ (ws : List Word) (s : State),
    s.config.memWords.val < ws.length ↔ loadProgram ws s = .error .programTooLarge

/-- The host during a run (70_reset section 2, R107 by decision D11; log entry 14): no accepted move but reset
changes memory or parameters, a load and a start are turned away, and reset is accepted and gives the reset
state. Should the running session hold a stopped core, which no accepted move leads to, its step keeps the state by
the model's choice (log entry 3). -/
def Obligations.HostCannotWriteDuringRun : Prop :=
  ∀ x : Session, x.running = true →
    (∀ ws, x.move (.load ws) = .error .busy) ∧ x.move .start = .error .busy ∧
      x.move .reset = .ok (Session.construct x.core.config) ∧
      (∃ y, x.move .clock = .ok y ∧ step x.core = .next y.core ∧ y.running = y.core.enabled ∧
        y.core.mem = x.core.mem ∧ y.core.config = x.core.config) ∧
      x.readBack = .error .notStopped

/-- Every sequence of accepted host moves from a session that meets the session invariant leads to one that does:
a running core is not stopped, and its state meets the state invariant. The session is the model's form of the
boot order (70_reset section 2; log entry 14). -/
def Obligations.HostMovesKeepSessionInvariant : Prop :=
  ∀ (ms : List HostMove) (x y : Session), x.Inv → Session.moves ms x = .ok y → y.Inv

/-- The signals and blocks of 40_fetch section 6 (the spec's own, D12; log entry 16) compute the step: one clock
edge without reset is one step, and one with reset is reset. For a stopped core the step's side of the equality is
the model's choice (log entry 3). -/
def Obligations.DatapathComputesTheStep : Prop :=
  ∀ s : State, step s = .next (clockEdge false s) ∧ clockEdge true s = State.resetWith s.config

/-! ## Pseudo-instructions -/

/-- The two-word `li` of 30_encoding section 7 (R56, from general knowledge; log entry 21) loads any 32-bit
constant and changes nothing else but the pc. -/
def Obligations.LoadImmediatePairLoadsAnyConstant : Prop :=
  ∀ (s : State) (rd : RegIdx) (imm : Word) (i j : Instr), expand (.li rd imm) = [i, j] →
    s.memRead s.pc.toNat = some (encode i) → s.memRead (s.pc.toNat + 1) = some (encode j) →
    ∃ t, stepN 2 s = .next t ∧ OnlyWrites s t rd imm (s.pc + 2#32)
end

