-- ==== Sys2Proof/Laws/Decode.lean ====
section
/-! SUPPORT. The decoder's selection, turned into facts about the word. -/

namespace Sys2Proof

/-- A word decodes to an instruction exactly when the dispatch selects it. -/
theorem decode_eq_instr {w : Word} {i : Instr} : decode w = .instr i ↔ select (decodeFields w) = some i := by
  unfold decode
  split <;> simp_all

/-- The label of a word is that of an instruction exactly when it is not a no-op. -/
theorem label_eq_noop {d : Selected} : d.label = .noop ↔ d.instr? = none := by
  cases d with
  | instr i => cases i <;> simp [Selected.label, Selected.instr?]
  | unrecognised c => simp [Selected.label, Selected.instr?]

end Sys2Proof
end

