-- ==== Sys2Proof/Laws/Memory.lean ====
section
/-! SUPPORT. The instruction memory as data: a read after a write, and that a write keeps the canonical form. -/

namespace Sys2Proof.Machine

@[simp] theorem Memory.read_nil (a : Nat) : Memory.read [] a = 0#32 := rfl

theorem Memory.read_cons (b : Nat) (v : Word) (m : Memory) (a : Nat) :
    Memory.read ((b, v) :: m) a = if b = a then v else m.read a := rfl

/-- An index below every listed one reads 0. -/
theorem Memory.read_of_all_above {m : Memory} {a : Nat} (h : ∀ c ∈ m, a < c.1) : m.read a = 0#32 := by
  induction m with
  | nil => rfl
  | cons c m ih =>
    obtain ⟨b, v⟩ := c
    have hb : a < b := h (b, v) (by simp)
    rw [Memory.read_cons, if_neg (by omega)]
    exact ih fun c hc => h c (by simp [hc])

/-- Another index than the one written reads as before. -/
theorem Memory.read_write_other (m : Memory) {a b : Nat} (v : Word) (h : b ≠ a) :
    (m.write a v).read b = m.read b := by
  induction m with
  | nil =>
    unfold Memory.write
    split
    · rfl
    · rw [Memory.read_cons, if_neg (fun e => h e.symm)]
  | cons c m ih =>
    obtain ⟨k, u⟩ := c
    unfold Memory.write
    split
    · split
      · rfl
      · rw [Memory.read_cons, if_neg (fun e => h e.symm)]
    · split
      · next hk =>
        subst hk
        split
        · rw [Memory.read_cons, if_neg (fun e => h e.symm)]
        · rw [Memory.read_cons, Memory.read_cons, if_neg (fun e => h e.symm), if_neg (fun e => h e.symm)]
      · rw [Memory.read_cons, Memory.read_cons, ih]

/-- In rising order, the index written reads the value written. -/
theorem Memory.read_write_same {m : Memory} (h : m.Pairwise (fun c d => c.1 < d.1)) (a : Nat) (v : Word) :
    (m.write a v).read a = v := by
  induction m with
  | nil =>
    unfold Memory.write
    split
    · next hv => exact hv.symm
    · rw [Memory.read_cons, if_pos rfl]
  | cons c m ih =>
    obtain ⟨k, u⟩ := c
    obtain ⟨hlt, hm⟩ := List.pairwise_cons.mp h
    unfold Memory.write
    split
    · next hak =>
      split
      · next hv =>
        rw [hv]
        refine Memory.read_of_all_above fun c hc => ?_
        rcases List.mem_cons.mp hc with rfl | hc
        · exact hak
        · exact Nat.lt_trans hak (hlt c hc)
      · rw [Memory.read_cons, if_pos rfl]
    · split
      · next hk =>
        subst hk
        split
        · next hv => rw [hv]; exact Memory.read_of_all_above hlt
        · rw [Memory.read_cons, if_pos rfl]
      · next hk => rw [Memory.read_cons, if_neg (fun e => hk e.symm), ih hm]

/-- The cells of a written memory are old ones, or the one written with a word other than 0. -/
theorem Memory.mem_write {m : Memory} {a : Nat} {v : Word} {c : Nat × Word} (h : c ∈ m.write a v) :
    c ∈ m ∨ (c = (a, v) ∧ v ≠ 0#32) := by
  induction m with
  | nil =>
    unfold Memory.write at h
    split at h
    · simp at h
    · next hv => exact .inr ⟨by simpa using h, hv⟩
  | cons d m ih =>
    obtain ⟨k, u⟩ := d
    unfold Memory.write at h
    split at h
    · split at h
      · exact .inl h
      · next hv =>
        rcases List.mem_cons.mp h with rfl | h
        · exact .inr ⟨rfl, hv⟩
        · exact .inl h
    · split at h
      · split at h
        · exact .inl (List.mem_cons_of_mem _ h)
        · next hv =>
          rcases List.mem_cons.mp h with rfl | h
          · exact .inr ⟨rfl, hv⟩
          · exact .inl (List.mem_cons_of_mem _ h)
      · rcases List.mem_cons.mp h with rfl | h
        · exact .inl (by simp)
        · rcases ih h with h | h
          · exact .inl (List.mem_cons_of_mem _ h)
          · exact .inr h

/-- A write keeps the rising order. -/
theorem Memory.write_pairwise {m : Memory} (h : m.Pairwise (fun c d => c.1 < d.1)) (a : Nat) (v : Word) :
    (m.write a v).Pairwise (fun c d => c.1 < d.1) := by
  induction m with
  | nil => unfold Memory.write; split <;> simp
  | cons d m ih =>
    obtain ⟨k, u⟩ := d
    obtain ⟨hlt, hm⟩ := List.pairwise_cons.mp h
    unfold Memory.write
    split
    · next hak =>
      split
      · exact h
      · refine List.pairwise_cons.mpr ⟨fun c hc => ?_, h⟩
        rcases List.mem_cons.mp hc with rfl | hc
        · exact hak
        · exact Nat.lt_trans hak (hlt c hc)
    · next hka =>
      split
      · next hk =>
        subst hk
        split
        · exact hm
        · exact List.pairwise_cons.mpr ⟨hlt, hm⟩
      · next hk =>
        refine List.pairwise_cons.mpr ⟨fun c hc => ?_, ih hm⟩
        rcases Memory.mem_write hc with hc | ⟨rfl, -⟩
        · exact hlt c hc
        · change k < a
          omega

/-- A write inside the memory keeps the canonical form. -/
theorem Memory.write_wf {n : Nat} {m : Memory} (h : m.wf n) {a : Nat} (ha : a < n) (v : Word) :
    (m.write a v).wf n := by
  refine ⟨Memory.write_pairwise h.1 a v, fun c hc => ?_⟩
  rcases Memory.mem_write hc with hc | ⟨rfl, hv⟩
  · exact h.2 c hc
  · exact ⟨hv, ha⟩

/-- The memory reset leaves is in canonical form. -/
theorem Memory.reset_wf (c : Config) : (State.resetWith c).mem.wf c.memWords.val :=
  ⟨List.Pairwise.nil, fun _ h => nomatch h⟩

end Sys2Proof.Machine
end

