-- ==== Sys2Proof/Laws/State.lean ====
section
/-! SUPPORT. Each update of the state, field by field: what it sets and what it leaves. -/

namespace Sys2Proof.Machine

@[simp] theorem State.setPc_config (s : State) (t : Word) : (s.setPc t).config = s.config := rfl
@[simp] theorem State.setPc_regs (s : State) (t : Word) : (s.setPc t).regs = s.regs := rfl
@[simp] theorem State.setPc_pc (s : State) (t : Word) : (s.setPc t).pc = t := rfl
@[simp] theorem State.setPc_mem (s : State) (t : Word) : (s.setPc t).mem = s.mem := rfl

@[simp] theorem State.resetWith_config (c : Config) : (State.resetWith c).config = c := rfl
@[simp] theorem State.resetWith_regs (c : Config) : (State.resetWith c).regs = Vector.replicate 32 0#32 := rfl
@[simp] theorem State.resetWith_pc (c : Config) : (State.resetWith c).pc = 0#32 := rfl
@[simp] theorem State.resetWith_mem (c : Config) : (State.resetWith c).mem = [] := rfl

@[simp] theorem State.writeReg_config (s : State) (i : RegIdx) (v : Word) : (s.writeReg i v).config = s.config := by
  unfold State.writeReg; split <;> rfl
@[simp] theorem State.writeReg_pc (s : State) (i : RegIdx) (v : Word) : (s.writeReg i v).pc = s.pc := by
  unfold State.writeReg; split <;> rfl
@[simp] theorem State.writeReg_mem (s : State) (i : RegIdx) (v : Word) : (s.writeReg i v).mem = s.mem := by
  unfold State.writeReg; split <;> rfl

/-- The registers after a write: unchanged for the hardwired register 0, else the one entry set. -/
theorem State.writeReg_regs (s : State) (i : RegIdx) (v : Word) :
    (s.writeReg i v).regs = if s.hardwired i then s.regs else s.regs.set i.toNat v i.isLt := by
  unfold State.writeReg; split <;> rfl

@[simp] theorem State.placeWord_config (s : State) (a : Nat) (v : Word) : (s.placeWord a v).config = s.config := by
  unfold State.placeWord State.memWrite; split <;> rfl
@[simp] theorem State.placeWord_regs (s : State) (a : Nat) (v : Word) : (s.placeWord a v).regs = s.regs := by
  unfold State.placeWord State.memWrite; split <;> rfl
@[simp] theorem State.placeWord_pc (s : State) (a : Nat) (v : Word) : (s.placeWord a v).pc = s.pc := by
  unfold State.placeWord State.memWrite; split <;> rfl

/-- The memory after a word is put at an index: written inside the memory, untouched outside. -/
theorem State.placeWord_mem (s : State) (a : Nat) (v : Word) :
    (s.placeWord a v).mem = if a < s.config.memWords.val then s.mem.write a v else s.mem := by
  unfold State.placeWord State.memWrite; split <;> rfl

end Sys2Proof.Machine
end

