-- ==== Sys2Proof/Laws/Ops.lean ====
section
/-! SUPPORT. What each shared operation can do, said once: register reads and writes, memory reads, the fetch,
the execute stage and the step. -/

namespace Sys2Proof.Machine

/-! ## Registers -/

@[simp] theorem State.hardwired_setPc (s : State) (t : Word) (i : RegIdx) :
    (s.setPc t).hardwired i = s.hardwired i := rfl

@[simp] theorem State.hardwired_writeReg (s : State) (j : RegIdx) (v : Word) (i : RegIdx) :
    (s.writeReg j v).hardwired i = s.hardwired i := by
  simp [State.hardwired]

@[simp] theorem State.readReg_setPc (s : State) (t : Word) (i : RegIdx) :
    (s.setPc t).readReg i = s.readReg i := rfl

/-- A register write leaves the pc, so writing the same pc back changes nothing. -/
theorem State.setPc_writeReg_self (s : State) (i : RegIdx) (v : Word) :
    (s.writeReg i v).setPc s.pc = s.writeReg i v := by
  conv_rhs => rw [show s.writeReg i v = (s.writeReg i v).setPc (s.writeReg i v).pc from rfl, State.writeReg_pc]

/-- The register written reads the value written, or 0 where it is hardwired. -/
theorem State.readReg_writeReg_same (s : State) (i : RegIdx) (v : Word) :
    (s.writeReg i v).readReg i = if s.hardwired i then 0#32 else v := by
  unfold State.readReg
  rw [State.hardwired_writeReg]
  split
  · rfl
  · next h => simp [State.writeReg_regs, h]

/-- Every other register reads as before. -/
theorem State.readReg_writeReg_other (s : State) {i j : RegIdx} (v : Word) (h : j ≠ i) :
    (s.writeReg i v).readReg j = s.readReg j := by
  unfold State.readReg
  rw [State.hardwired_writeReg]
  split
  · rfl
  · have hne : i.toNat ≠ j.toNat := fun e => h (BitVec.eq_of_toNat_eq e.symm)
    simp only [State.writeReg_regs]
    split
    · rfl
    · simp [hne]

/-! ## Memory -/

@[simp] theorem State.memRead_setPc (s : State) (t : Word) (a : Nat) :
    (s.setPc t).memRead a = s.memRead a := rfl

@[simp] theorem State.memRead_writeReg (s : State) (i : RegIdx) (v : Word) (a : Nat) :
    (s.writeReg i v).memRead a = s.memRead a := by
  simp [State.memRead]

/-- `MemRead` answers exactly inside the memory. -/
theorem State.memRead_eq_some {s : State} {a : Nat} {w : Word} :
    s.memRead a = some w ↔ a < s.config.memWords.val ∧ s.mem.read a = w := by
  unfold State.memRead
  split <;> simp_all

/-! ## The fetch -/

/-- A step is enabled exactly when the pc is a valid index. -/
theorem State.enabled_iff {s : State} : s.enabled = true ↔ s.pc.toNat < s.config.memWords.val := by
  simp [State.enabled]

/-- The fetch of a valid pc: the word there, and the pc one further. -/
theorem State.fetch_of_memRead {s : State} {w : Word} (h : s.memRead s.pc.toNat = some w) :
    s.fetch = some (w, s.setPc (s.pc + 1#32)) := by
  obtain ⟨hlt, hw⟩ := State.memRead_eq_some.mp h
  simp [State.fetch, State.enabled_iff.mpr hlt, hw]

/-- No fetch is made in the stopped state. -/
theorem State.fetch_of_stopped {s : State} (h : s.enabled = false) : s.fetch = none := by
  simp [State.fetch, h]

/-- Either the core is stopped, or there is a word at the pc. -/
theorem State.stopped_or_word (s : State) : s.enabled = false ∨ ∃ w, s.memRead s.pc.toNat = some w := by
  cases h : s.enabled with
  | false => exact .inl rfl
  | true => exact .inr ⟨s.mem.read s.pc.toNat, State.memRead_eq_some.mpr ⟨State.enabled_iff.mp h, rfl⟩⟩

/-- The increment of a valid pc does not wrap (10_state R15). -/
theorem State.pc_succ_toNat {s : State} (h : s.enabled = true) : (s.pc + 1#32).toNat = s.pc.toNat + 1 := by
  have h1 := State.enabled_iff.mp h
  have h2 := s.config.memWords.isLt
  rw [BitVec.toNat_add]
  simp only [BitVec.toNat_ofNat]
  omega

/-! ## The step -/

/-- A step at a word is the execute stage on what it selects, after the fetch's increment. -/
theorem step_of_memRead {s : State} {w : Word} (h : s.memRead s.pc.toNat = some w) :
    step s = execute (decode w) (s.setPc (s.pc + 1#32)) := by
  simp [step, State.fetch_of_memRead h]

/-- A stopped core keeps its state. -/
theorem step_of_stopped {s : State} (h : s.enabled = false) : step s = .next s := by
  simp [step, State.fetch_of_stopped h, stopStep]

/-- The pc an instruction leaves, in a state whose pc is `pc1`. -/
def pcAfter (s : State) : Instr → Word
  | .jal _ imm => s.pc + imm
  | .jalr rd rs1 _ imm => jalrTarget ((s.writeReg rd s.pc).readReg rs1) imm
  | _ => s.pc

/-- Everything an instruction can do: one register write and one pc. -/
theorem exec_eq (i : Instr) (s : State) :
    exec i s = .next ((s.writeReg i.rd (writeBackValue s i)).setPc (pcAfter s i)) := by
  cases i with
  | jal rd imm => rfl
  | jalr rd rs1 funct3 imm => rfl
  | lui rd imm => exact congrArg _ (State.setPc_writeReg_self s rd _).symm
  | auipc rd imm => exact congrArg _ (State.setPc_writeReg_self s rd _).symm
  | addi rd rs1 imm => exact congrArg _ (State.setPc_writeReg_self s rd _).symm
  | add rd rs1 rs2 => exact congrArg _ (State.setPc_writeReg_self s rd _).symm
  | sub rd rs1 rs2 => exact congrArg _ (State.setPc_writeReg_self s rd _).symm

/-- One register write and one pc write are all that `OnlyWrites` allows. -/
theorem onlyWrites_of_write (s : State) (rd : RegIdx) (v target : Word) :
    OnlyWrites s ((s.writeReg rd v).setPc target) rd v target where
  written := by rw [State.readReg_setPc, State.readReg_writeReg_same]
  others r h := by rw [State.readReg_setPc, State.readReg_writeReg_other s v h]
  pc := rfl
  mem a := by simp
  config := by simp

/-! ## The load -/

/-- Putting words from index `a` on: inside the memory each index of the range reads its word. -/
theorem State.placeWords_fields (ws : List Word) : ∀ (a : Nat) (s : State),
    (s.placeWords a ws).config = s.config ∧ (s.placeWords a ws).regs = s.regs ∧ (s.placeWords a ws).pc = s.pc := by
  induction ws with
  | nil => intro a s; exact ⟨rfl, rfl, rfl⟩
  | cons v vs ih =>
    intro a s
    obtain ⟨h1, h2, h3⟩ := ih (a + 1) (s.placeWord a v)
    simp [State.placeWords, h1, h2, h3]

end Sys2Proof.Machine
end

