-- ==== Sys2Proof/Laws/PerInstr.lean ====
section
/-! SUPPORT. Statements about the syntax of all instructions, one lemma per constructor. -/

namespace Sys2Proof.Laws

open Sys2Proof.Machine

/-- Two vectors are equal when they agree on every bit. -/
theorem bits_ext {n : Nat} {v w : BitVec n} (h : ∀ k < n, v.getLsbD k = w.getLsbD k) : v = w :=
  BitVec.eq_of_getLsbD_eq fun k hk => h k hk

/-! ## The encoding of an instruction lies in its own row of the opcode table (30_encoding R50) -/

def EncodingRow.Statement (i : Instr) : Prop := encode i &&& rowMask i = rowMatch i

theorem EncodingRow.lui (rd : RegIdx) (imm : Word) :
    EncodingRow.Statement (.lui rd imm) := by
  refine bits_ext fun k hk => ?_
  interval_cases k <;>
    simp only [encode, encodeU, rowMask, rowMatch, opLui, BitVec.getLsbD_and, BitVec.getLsbD_append] <;> simp

theorem EncodingRow.auipc (rd : RegIdx) (imm : Word) :
    EncodingRow.Statement (.auipc rd imm) := by
  refine bits_ext fun k hk => ?_
  interval_cases k <;>
    simp only [encode, encodeU, rowMask, rowMatch, opAuipc, BitVec.getLsbD_and, BitVec.getLsbD_append] <;> simp

theorem EncodingRow.jal (rd : RegIdx) (imm : Word) :
    EncodingRow.Statement (.jal rd imm) := by
  refine bits_ext fun k hk => ?_
  interval_cases k <;>
    simp only [encode, encodeJ, rowMask, rowMatch, opJal, BitVec.getLsbD_and, BitVec.getLsbD_append] <;> simp

theorem EncodingRow.jalr (rd rs1 : RegIdx) (funct3 : BitVec 3) (imm : Word) :
    EncodingRow.Statement (.jalr rd rs1 funct3 imm) := by
  refine bits_ext fun k hk => ?_
  interval_cases k <;>
    simp only [encode, encodeI, rowMask, rowMatch, opJalr, BitVec.getLsbD_and, BitVec.getLsbD_append] <;> simp

theorem EncodingRow.addi (rd rs1 : RegIdx) (imm : Word) :
    EncodingRow.Statement (.addi rd rs1 imm) := by
  refine bits_ext fun k hk => ?_
  interval_cases k <;>
    simp only [encode, encodeI, rowMask, rowMatch, opAluImm, f3AddSub, BitVec.getLsbD_and, BitVec.getLsbD_append] <;> simp

theorem EncodingRow.add (rd rs1 rs2 : RegIdx) :
    EncodingRow.Statement (.add rd rs1 rs2) := by
  refine bits_ext fun k hk => ?_
  interval_cases k <;>
    simp only [encode, encodeR, rowMask, rowMatch, opAluReg, f3AddSub, f7Add, BitVec.getLsbD_and, BitVec.getLsbD_append] <;> simp

theorem EncodingRow.sub (rd rs1 rs2 : RegIdx) :
    EncodingRow.Statement (.sub rd rs1 rs2) := by
  refine bits_ext fun k hk => ?_
  interval_cases k <;>
    simp only [encode, encodeR, rowMask, rowMatch, opAluReg, f3AddSub, f7Sub, BitVec.getLsbD_and, BitVec.getLsbD_append] <;> simp

/-! ## The destination register stands in bits 11 to 7 of every encoding (30_encoding R39) -/

def DestinationField.Statement (i : Instr) : Prop := (decodeFields (encode i)).rd = i.rd

theorem DestinationField.lui (rd : RegIdx) (imm : Word) :
    DestinationField.Statement (.lui rd imm) := by
  refine bits_ext fun k hk => ?_
  interval_cases k <;>
    simp only [decodeFields, bits, BitVec.getLsbD_extractLsb, encode, encodeU, Instr.rd, BitVec.getLsbD_append] <;> simp

theorem DestinationField.auipc (rd : RegIdx) (imm : Word) :
    DestinationField.Statement (.auipc rd imm) := by
  refine bits_ext fun k hk => ?_
  interval_cases k <;>
    simp only [decodeFields, bits, BitVec.getLsbD_extractLsb, encode, encodeU, Instr.rd, BitVec.getLsbD_append] <;> simp

theorem DestinationField.jal (rd : RegIdx) (imm : Word) :
    DestinationField.Statement (.jal rd imm) := by
  refine bits_ext fun k hk => ?_
  interval_cases k <;>
    simp only [decodeFields, bits, BitVec.getLsbD_extractLsb, encode, encodeJ, Instr.rd, BitVec.getLsbD_append] <;> simp

theorem DestinationField.jalr (rd rs1 : RegIdx) (funct3 : BitVec 3) (imm : Word) :
    DestinationField.Statement (.jalr rd rs1 funct3 imm) := by
  refine bits_ext fun k hk => ?_
  interval_cases k <;>
    simp only [decodeFields, bits, BitVec.getLsbD_extractLsb, encode, encodeI, Instr.rd, BitVec.getLsbD_append] <;> simp

theorem DestinationField.addi (rd rs1 : RegIdx) (imm : Word) :
    DestinationField.Statement (.addi rd rs1 imm) := by
  refine bits_ext fun k hk => ?_
  interval_cases k <;>
    simp only [decodeFields, bits, BitVec.getLsbD_extractLsb, encode, encodeI, Instr.rd, BitVec.getLsbD_append] <;> simp

theorem DestinationField.add (rd rs1 rs2 : RegIdx) :
    DestinationField.Statement (.add rd rs1 rs2) := by
  refine bits_ext fun k hk => ?_
  interval_cases k <;>
    simp only [decodeFields, bits, BitVec.getLsbD_extractLsb, encode, encodeR, Instr.rd, BitVec.getLsbD_append] <;> simp

theorem DestinationField.sub (rd rs1 rs2 : RegIdx) :
    DestinationField.Statement (.sub rd rs1 rs2) := by
  refine bits_ext fun k hk => ?_
  interval_cases k <;>
    simp only [decodeFields, bits, BitVec.getLsbD_extractLsb, encode, encodeR, Instr.rd, BitVec.getLsbD_append] <;> simp

end Sys2Proof.Laws
end

