-- ==== Sys2Proof/Laws/Run.lean ====
section
/-! SUPPORT. One step more of a run, and what any step leaves alone. -/

namespace Sys2Proof.Machine

/-- Either the core is stopped and a step changes nothing, or a step is the execute stage on the word at the
pc. -/
theorem step_cases (s : State) :
    (s.enabled = false ∧ step s = .next s) ∨
      ∃ w, s.memRead s.pc.toNat = some w ∧ step s = execute (decode w) (s.setPc (s.pc + 1#32)) := by
  rcases State.stopped_or_word s with h | ⟨w, h⟩
  · exact .inl ⟨h, step_of_stopped h⟩
  · exact .inr ⟨w, h, step_of_memRead h⟩

/-- The execute stage, whatever was selected: at most one register written, and one pc. -/
theorem execute_cases (d : Selected) (s : State) :
    (∃ c, d = .unrecognised c ∧ execute d s = .next s) ∨
      ∃ i, d = .instr i ∧ execute d s = .next ((s.writeReg i.rd (writeBackValue s i)).setPc (pcAfter s i)) := by
  cases d with
  | unrecognised c => exact .inl ⟨c, rfl, rfl⟩
  | instr i => exact .inr ⟨i, rfl, exec_eq i s⟩

/-- No step changes the memory or the parameters. -/
theorem step_mem_config {s t : State} (h : step s = .next t) : t.mem = s.mem ∧ t.config = s.config := by
  rcases step_cases s with ⟨-, hs⟩ | ⟨w, -, hs⟩
  · rw [hs] at h
    cases h
    exact ⟨rfl, rfl⟩
  · rw [hs] at h
    rcases execute_cases (decode w) (s.setPc (s.pc + 1#32)) with ⟨c, -, he⟩ | ⟨i, -, he⟩ <;>
      · rw [he] at h
        cases h
        simp

/-- One step more: `stepN`. -/
theorem stepN_succ {s t : State} (n : Nat) (h : step s = .next t) : stepN (n + 1) s = stepN n t := by
  simp [stepN, h]

/-- One step more: a run. -/
theorem run_succ {s t : State} (n : Nat) (he : s.enabled = true) (h : step s = .next t) :
    run (n + 1) s = run n t := by
  simp [run, State.stopped, he, h]

end Sys2Proof.Machine
end

