-- ==== Sys2Proof/Tests/Slice0.lean ====
section
/-! SUPPORT. Tests: ill-formed terms refused, words of the spec decoded, one step of each instruction
(95_test_vectors), and a witness for the hypotheses of each statement. -/

namespace Sys2Proof.Tests

open Sys2Proof.Machine

/-! ## WellFormed: each check refuses an ill-formed term -/

theorem test_wellFormed_refuses_lui : (Instr.lui 1#5 0x00000001#32).wellFormed = false := by decide
theorem test_wellFormed_refuses_auipc : (Instr.auipc 1#5 0x00000800#32).wellFormed = false := by decide
theorem test_wellFormed_refuses_jal_odd : (Instr.jal 1#5 0xFFFFFFFF#32).wellFormed = false := by decide
theorem test_wellFormed_refuses_jal_far : (Instr.jal 1#5 0x00100000#32).wellFormed = false := by decide
theorem test_wellFormed_refuses_jalr : (Instr.jalr 1#5 2#5 0#3 0x00000800#32).wellFormed = false := by decide
theorem test_wellFormed_refuses_addi : (Instr.addi 1#5 2#5 0x00001000#32).wellFormed = false := by decide

/-! ## Decode: words written out from the encoding tables of 30_encoding R41, R43, R44 (fields high to low) -/

theorem test_decode_lui : decode (0x12345#20 ++ 0b00101#5 ++ 0b0110111#7) = .instr (.lui 5#5 0x12345000#32) := by decide
theorem test_decode_auipc : decode (0xFFFFF#20 ++ 0b01000#5 ++ 0b0010111#7) = .instr (.auipc 8#5 0xFFFFF000#32) := by decide
/-- E14: the largest offset, every group of immediate bits set. -/
theorem test_decode_jal :
    decode (0b0#1 ++ 0b1111111111#10 ++ 0b1#1 ++ 0b11111111#8 ++ 0b00001#5 ++ 0b1101111#7) =
      .instr (.jal 1#5 1048574#32) := by decide
/-- One bit of each of the two groups of J-type immediate bits that trade places (R47). -/
theorem test_decode_jal_groups :
    decode (0b0#1 ++ 0b0000000001#10 ++ 0b1#1 ++ 0b00000001#8 ++ 0b00001#5 ++ 0b1101111#7) =
      .instr (.jal 1#5 0x00001802#32) := by decide
theorem test_decode_jalr :
    decode (0b100000000000#12 ++ 0b00010#5 ++ 0b101#3 ++ 0b00001#5 ++ 0b1100111#7) =
      .instr (.jalr 1#5 2#5 0b101#3 (-2048#32)) := by decide
theorem test_decode_addi :
    decode (0b111111111111#12 ++ 0b00000#5 ++ 0b000#3 ++ 0b00010#5 ++ 0b0010011#7) =
      .instr (.addi 2#5 0#5 (-1#32)) := by decide
theorem test_decode_add :
    decode (0b0000000#7 ++ 0b00011#5 ++ 0b00010#5 ++ 0b000#3 ++ 0b00100#5 ++ 0b0110011#7) =
      .instr (.add 4#5 2#5 3#5) := by decide
theorem test_decode_sub :
    decode (0b0100000#7 ++ 0b00011#5 ++ 0b00010#5 ++ 0b000#3 ++ 0b00100#5 ++ 0b0110011#7) =
      .instr (.sub 4#5 2#5 3#5) := by decide
/-- E7: all six fields of a U-type word are extracted. -/
theorem test_fields_E7 : decodeFields 0x123452B7#32 = ⟨0x37#7, 5#5, 0b101#3, 8#5, 3#5, 0b0001001#7, 0x12345000#32⟩ := by
  decide
/-- E16: opcode 0x33 with every other bit set has a zero immediate. -/
theorem test_fields_E16 : decodeFields 0xFFFFFFB3#32 = ⟨0x33#7, 31#5, 7#3, 31#5, 31#5, 0x7F#7, 0#32⟩ := by decide
/-- R56: the example words of `mv`, `neg` and `ret`. -/
theorem test_pseudo_words :
    (expand (.mv 5#5 6#5)).map encode = [0x00030293#32] ∧ (expand (.neg 5#5 6#5)).map encode = [0x406002B3#32] ∧
      (expand .ret).map encode = [0x00008067#32] := by decide

/-! ## One step (95_test_vectors, sections 2.2 to 2.7) -/

/-- The reset state with the word `w` at index `k` and the pc there. -/
def loaded (k : Nat) (w : Word) : State := (State.reset.placeWord k w).setPc (BitVec.ofNat 32 k)

/-- The same core constructed with `X0_HARDWIRED = true`. -/
def loadedHardwired (w : Word) : State :=
  (State.resetWith { Config.default with x0Hardwired := true }).placeWord 0 w

/-- The state after one step. -/
def after (s : State) : State :=
  match step s with
  | .next t => t
  | .fault f => nomatch f
  | .refused _ => s

/-- V1 -/
theorem test_lui : (after (loaded 0 0x123452B7#32)).readReg 5#5 = 0x12345000#32 ∧ (after (loaded 0 0x123452B7#32)).pc = 1#32 := by
  decide
/-- V4, and its remark for `X0_HARDWIRED = true` -/
theorem test_lui_x0 :
    (after (loaded 0 0x00001037#32)).readReg 0#5 = 0x00001000#32 ∧
      (after (loadedHardwired 0x00001037#32)).readReg 0#5 = 0#32 := by decide
/-- V6 -/
theorem test_auipc : (after (loaded 3 0x00001297#32)).readReg 5#5 = 0x00001004#32 ∧ (after (loaded 3 0x00001297#32)).pc = 4#32 := by
  decide
/-- V10 -/
theorem test_jal : (after (loaded 4 0x008000EF#32)).readReg 1#5 = 5#32 ∧ (after (loaded 4 0x008000EF#32)).pc = 13#32 := by
  decide
/-- V13: a backward jump below index 0 wraps and stops the run, with the link written. -/
theorem test_jal_wraps :
    (after (loaded 4 0xFFBFF0EF#32)).readReg 1#5 = 5#32 ∧ (after (loaded 4 0xFFBFF0EF#32)).pc = 0xFFFFFFFF#32 ∧
      (after (loaded 4 0xFFBFF0EF#32)).stopped = true := by decide
/-- V20 -/
theorem test_jalr :
    (after ((loaded 3 0x00C100E7#32).writeReg 2#5 0x0B#32)).readReg 1#5 = 4#32 ∧
      (after ((loaded 3 0x00C100E7#32).writeReg 2#5 0x0B#32)).pc = 0x16#32 := by decide
/-- V24: with `rd = rs1` the base is the link. -/
theorem test_jalr_same_register :
    (after ((loaded 1 0x006080E7#32).writeReg 1#5 0x64#32)).readReg 1#5 = 2#32 ∧
      (after ((loaded 1 0x006080E7#32).writeReg 1#5 0x64#32)).pc = 8#32 := by decide
/-- V32 -/
theorem test_addi_wraps : (after ((loaded 0 0x00118113#32).writeReg 3#5 0x7FFFFFFF#32)).readReg 2#5 = 0x80000000#32 := by
  decide
/-- V39: the destination is the source. -/
theorem test_addi_same_register : (after ((loaded 6 0x00110113#32).writeReg 2#5 0x29#32)).readReg 2#5 = 0x2A#32 := by
  decide
/-- V41 -/
theorem test_add_doubles : (after ((loaded 0 0x002101B3#32).writeReg 2#5 0x80000001#32)).readReg 3#5 = 2#32 := by decide
/-- V46: minuend and subtrahend in this order. -/
theorem test_sub :
    (after (((loaded 0 0x402181B3#32).writeReg 2#5 5#32).writeReg 3#5 6#32)).readReg 3#5 = 1#32 := by decide
/-- V47 -/
theorem test_sub_borrows : (after ((loaded 0 0x40310233#32).writeReg 3#5 1#32)).readReg 4#5 = 0xFFFFFFFF#32 := by decide
/-- V67: one bit beside SUB's `funct7` makes a no-op. -/
theorem test_noop : after (loaded 7 0x423101B3#32) = (loaded 7 0x423101B3#32).setPc 8#32 ∧ stepLabel (loaded 7 0x423101B3#32) = some .noop := by
  decide
/-- A word placed for the fetch is the one the next step runs. -/
theorem test_withFetchWord : after (State.reset.withFetchWord 32 0x00500113) = (((loaded 0 0x00500113#32).writeReg 2#5 5#32).setPc 1#32) := by
  decide
/-- P1 with `MEM_WORDS = 3`: the load of four words is refused. -/
theorem test_load_too_long :
    (match boot { memWords := ⟨3, by decide⟩, x0Hardwired := false } [0x13#32, 0x13#32, 0x13#32, 0x13#32] with
      | .error .programTooLarge => true
      | .ok _ => false) = true := by decide

/-! ## Witnesses: for each statement with hypotheses, a concrete case that meets all of them -/

/-- Both opcodes, at both ends of the range of the immediate. -/
theorem witness_ITypeImmediateSignExtended :
    ((0x80018113#32).extractLsb' 0 7 = opAluImm ∧ immI 0x80018113#32 = (-2048#32)) ∧
      ((0x7FF100E7#32).extractLsb' 0 7 = opJalr ∧ immI 0x7FF100E7#32 = 2047#32) := by decide
theorem witness_UTypeImmediateMasked :
    (0xFFFFF2B7#32).extractLsb' 0 7 = opLui ∧ (0x00000297#32).extractLsb' 0 7 = opAuipc := by decide
theorem witness_JTypeImmediateReassembled :
    ((0x800000EF#32).extractLsb' 0 7 = opJal ∧ immJ 0x800000EF#32 = (-1048576#32)) ∧
      ((0x7FFFF0EF#32).extractLsb' 0 7 = opJal ∧ immJ 0x7FFFF0EF#32 = 1048574#32) := by decide
theorem witness_OtherOpcodesHaveZeroImmediate :
    (0xFFFFFFB3#32).extractLsb' 0 7 ∉ [opAluImm, opJalr, opAuipc, opLui, opJal] ∧
      (decodeFields 0x00012183#32).opcode ∉ [opAluImm, opJalr, opAuipc, opLui, opJal] := by decide
theorem witness_DecodeOfEncode :
    (Instr.lui 31#5 0xFFFFF000#32).wellFormed = true ∧ (Instr.jal 0#5 0xFFF00000#32).wellFormed = true ∧
      (Instr.jalr 31#5 0#5 7#3 0xFFFFF800#32).wellFormed = true ∧ (Instr.addi 0#5 31#5 2047#32).wellFormed = true := by
  decide
theorem witness_EncodeOfDecode : decode 0x000150E7#32 = .instr (.jalr 1#5 2#5 5#3 0#32) := by decide

/-- The last valid index, the first index outside, and a memory of no words. -/
theorem witness_RunConditionIsPcBelowMemWords :
    (State.reset.setPc 1023#32).enabled = true ∧ (State.reset.setPc 1024#32).stopped = true ∧
      (State.resetWith { memWords := ⟨0, by decide⟩, x0Hardwired := false }).config.memWords.val = 0 := by decide
theorem witness_StopIsFinal : (State.reset.setPc 0xFFFFFFFF#32).stopped = true := by decide
theorem witness_FetchReadsAndAdvancesByOne :
    State.reset.memRead State.reset.pc.toNat = some 0#32 ∧ decode 0#32 = .unrecognised .zeroWord := by decide
/-- A word that is an instruction and no jump, one that is a jump, and an unrecognised one. -/
theorem witness_StepRunsDecodedInstruction :
    ((loaded 0 0x00500113#32).memRead 0 = some 0x00500113#32 ∧
        decode 0x00500113#32 = .instr (.addi 2#5 0#5 5#32) ∧ isJump 0x00500113#32 = false) ∧
      isJump 0x008000EF#32 = true ∧ decode 0x00000073#32 = .unrecognised .system := by decide
/-- A stopped core; a word that is no jump; a JAL; a JALR. -/
theorem witness_EveryStepCompletesAtAKnownPc :
    (State.reset.setPc 1024#32).stopped = true ∧
      (loaded 1023 0x00500113#32).memRead 1023 = some 0x00500113#32 ∧ isJump 0x00500113#32 = false ∧
      (loaded 4 0x008000EF#32).memRead 4 = some 0x008000EF#32 ∧ decode 0x008000EF#32 = .instr (.jal 1#5 8#32) ∧
      (loaded 3 0x00C100E7#32).memRead 3 = some 0x00C100E7#32 ∧
      decode 0x00C100E7#32 = .instr (.jalr 1#5 2#5 0#3 12#32) := by decide
theorem witness_OneWriteBackPerInstruction :
    State.reset.config.x0Hardwired = false ∧ State.reset.fetch = some (0#32, State.reset.setPc 1#32) := by decide
theorem witness_LabelNamesTheArm :
    (loaded 0 0x003101B3#32).memRead 0 = some 0x003101B3#32 ∧ decode 0x003101B3#32 = .instr (.add 3#5 2#5 3#5) := by
  decide
theorem witness_LuiLoadsImmediate :
    (loaded 0 0xFFFFF2B7#32).memRead 0 = some 0xFFFFF2B7#32 ∧ 0xFFFFF2B7#32 &&& 0x0000007F#32 = 0x00000037#32 := by decide
theorem witness_AuipcAddsToNextIndex :
    (loaded 3 0x00001297#32).memRead 3 = some 0x00001297#32 ∧ 0x00001297#32 &&& 0x0000007F#32 = 0x00000017#32 := by decide
theorem witness_JalLinksAndJumps :
    (loaded 4 0x008000EF#32).pc = 4#32 ∧ (loaded 4 0x008000EF#32).memRead 4 = some 0x008000EF#32 ∧
      0x008000EF#32 &&& 0x0000007F#32 = 0x0000006F#32 := by decide
/-- Once with `rd = rs1` and once without. -/
theorem witness_JalrLinksThenJumps :
    ((loaded 3 0x00C100E7#32).memRead 3 = some 0x00C100E7#32 ∧ 0x00C100E7#32 &&& 0x0000007F#32 = 0x00000067#32) ∧
      ((loaded 1 0x006080E7#32).memRead 1 = some 0x006080E7#32 ∧ 0x006080E7#32 &&& 0x0000007F#32 = 0x00000067#32 ∧
        (0x006080E7#32).extractLsb' 7 5 = (0x006080E7#32).extractLsb' 15 5) := by decide
theorem witness_AddiAddsImmediate :
    (loaded 0 0x00500113#32).memRead 0 = some 0x00500113#32 ∧ 0x00500113#32 &&& 0x0000707F#32 = 0x00000013#32 ∧
      (0x00017113#32).extractLsb' 0 7 = 0x13#7 ∧ (0x00017113#32).extractLsb' 12 3 ≠ 0b000#3 ∧
      (loaded 0 0x00000013#32).memRead 0 = some 0x00000013#32 := by decide
theorem witness_AddAddsRegisters :
    let s := ((loaded 0 0x003101B3#32).writeReg 2#5 5#32).writeReg 3#5 6#32
    s.readReg 2#5 = 5#32 ∧ s.readReg 3#5 = 6#32 ∧ s.memRead s.pc.toNat = some 0x003101B3#32 ∧
      0x003101B3#32 &&& 0xFE00707F#32 = 0x00000033#32 := by decide
theorem witness_SubSubtractsRegisters :
    let s := ((loaded 0 0x402181B3#32).writeReg 2#5 5#32).writeReg 3#5 6#32
    s.readReg 2#5 = 5#32 ∧ s.readReg 3#5 = 6#32 ∧ s.memRead s.pc.toNat = some 0x402181B3#32 ∧
      0x402181B3#32 &&& 0xFE00707F#32 = 0x40000033#32 := by decide
theorem witness_UnrecognisedWordOnlyAdvancesPc :
    ((loaded 7 0x203101B3#32).memRead 7 = some 0x203101B3#32 ∧
        0x203101B3#32 &&& 0x7F#32 ∉ [0x37#32, 0x17#32, 0x6F#32, 0x67#32] ∧ 0x203101B3#32 &&& 0x707F#32 ≠ 0x13#32 ∧
        0x203101B3#32 &&& 0xFE00707F#32 ∉ [0x00000033#32, 0x40000033#32]) ∧
      (loaded 7 0#32).pc = 7#32 ∧ (loaded 7 0#32).memRead 7 = some 0#32 := by decide
/-- A word of each class: SLLI; AND and MUL; LW; SW; BEQ; FENCE; ECALL; and opcode 0x12. -/
theorem witness_NoopClassesByEncoding :
    ((0x00111113#32).extractLsb' 0 7 = 0x13#7 ∧ (0x00111113#32).extractLsb' 12 3 ≠ 0b000#3) ∧
      ((0x0031F1B3#32).extractLsb' 0 7 = 0x33#7 ∧ (0x0031F1B3#32).extractLsb' 12 3 ≠ 0b000#3) ∧
      ((0x023101B3#32).extractLsb' 0 7 = 0x33#7 ∧ (0x023101B3#32).extractLsb' 25 7 ∉ [0b0000000#7, 0b0100000#7]) ∧
      (0x00012183#32).extractLsb' 0 7 = 0x03#7 ∧ (0x00312023#32).extractLsb' 0 7 = 0x23#7 ∧
      (0x00000063#32).extractLsb' 0 7 = 0x63#7 ∧ (0x0FF0000F#32).extractLsb' 0 7 = 0x0F#7 ∧
      (0x00000073#32).extractLsb' 0 7 = 0x73#7 ∧
      ((0x00500112#32).extractLsb' 0 7 ∉
        [0x13#7, 0x33#7, 0x37#7, 0x17#7, 0x6F#7, 0x67#7, 0x03#7, 0x23#7, 0x63#7, 0x0F#7, 0x73#7]) := by decide
theorem witness_RegisterZeroSwitch :
    State.reset.config.x0Hardwired = false ∧ (loadedHardwired 0#32).config.x0Hardwired = true := by decide
theorem witness_SwitchOnlyConcernsRegisterZero :
    (Instr.jalr 31#5 1#5 0#3 0#32).rd ≠ 0#5 ∧ 0#5 ∉ sources (.jalr 31#5 1#5 0#3 0#32) := by decide
/-- Two different states that agree on the one source of an ADDI. -/
theorem witness_OnlySourcesAreRead :
    State.reset.writeReg 2#5 7#32 ≠ State.reset ∧ (State.reset.writeReg 2#5 7#32).pc = State.reset.pc ∧
      (State.reset.writeReg 2#5 7#32).config = State.reset.config ∧
      ∀ r ∈ sources (.addi 3#5 1#5 0#32), (State.reset.writeReg 2#5 7#32).readReg r = State.reset.readReg r := by decide
theorem witness_JalrIgnoresFunct3 :
    0x000150E7#32 &&& 0xFFFF8FFF#32 = 0x000100E7#32 &&& 0xFFFF8FFF#32 ∧ 0x000150E7#32 &&& 0x7F#32 = 0x67#32 ∧
      decode 0x000150E7#32 = .instr (.jalr 1#5 2#5 5#3 0#32) := by decide
/-- An even and an odd link value. -/
theorem witness_JalrReachesOnlyEvenIndices :
    (0#5 ≠ 1#5) ∧ ((State.reset.writeReg 1#5 2#32).readReg 1#5).toNat % 2 = 0 ∧
      ((State.reset.writeReg 1#5 1#32).readReg 1#5).toNat % 2 = 1 := by decide
theorem witness_OnlyJalrCanRepeatItself :
    (loaded 4 0xFFFFF0EF#32).memRead 4 = some 0xFFFFF0EF#32 ∧ (decode 0xFFFFF0EF#32).label ≠ .jalr := by decide

/-- The memory of a fresh core holds zero words only. -/
theorem reset_words_zero (c : Config) {a : Nat} {w : Word} (h : (State.resetWith c).memRead a = some w) : w = 0#32 := by
  unfold State.memRead at h
  split at h
  · cases h
    rfl
  · cases h

theorem witness_PathIgnoresRegistersWithoutJalr :
    State.reset ≠ State.reset.writeReg 1#5 9#32 ∧ State.reset.pc = (State.reset.writeReg 1#5 9#32).pc ∧
      State.reset.mem = (State.reset.writeReg 1#5 9#32).mem ∧
      State.reset.config.memWords = (State.reset.writeReg 1#5 9#32).config.memWords ∧
      ∀ a w, State.reset.memRead a = some w → (decode w).label ≠ .jalr :=
  ⟨by decide, by decide, by decide, by decide, fun _ _ h => by rw [reset_words_zero _ h]; decide⟩
theorem witness_JumpFreeRunTakesMemWordsSteps :
    State.reset.pc = 0#32 ∧ (∀ a w, State.reset.memRead a = some w → isJump w = false) ∧
      1023 < State.reset.config.memWords.val :=
  ⟨rfl, fun _ _ h => by rw [reset_words_zero _ h]; decide, by decide⟩
theorem witness_ZeroTailLeavesRegisters :
    State.reset.enabled = true ∧ ∀ a w, State.reset.pc.toNat ≤ a → State.reset.memRead a = some w → w = 0#32 :=
  ⟨by decide, fun _ _ _ h => reset_words_zero _ h⟩
theorem witness_ShortestJalLoopNeverStops :
    let s := State.reset.placeWord 1 0xFFFFF06F#32
    s.memRead s.pc.toNat = some 0#32 ∧ isJump 0#32 = false ∧ s.memRead (s.pc.toNat + 1) = some 0xFFFFF06F#32 ∧
      decode 0xFFFFF06F#32 = .instr (.jal 0#5 (-2#32)) := by decide

theorem reset_inv : State.reset.Inv := ⟨by decide, by decide⟩

/-- A state that meets the invariant with a word listed and register 0 hardwired. -/
theorem hardwired_inv : (loadedHardwired 0x00001037#32).Inv := ⟨by decide, by decide⟩

theorem witness_StepKeepsInvariant :
    (loadedHardwired 0x00001037#32).Inv ∧
      step (loadedHardwired 0x00001037#32) = .next (after (loadedHardwired 0x00001037#32)) :=
  ⟨hardwired_inv, rfl⟩
theorem witness_LoadKeepsInvariant :
    State.reset.Inv ∧ loadProgram [0x13#32, 0#32] State.reset = .ok (State.reset.placeWord 0 0x13#32) :=
  ⟨reset_inv, rfl⟩
theorem witness_CanonicalMemoryIsUnique :
    Memory.wf 8 [(3, 5#32), (7, 1#32)] ∧ Memory.wf 8 (Memory.write [(7, 1#32)] 3 5#32) ∧
      ∀ a, Memory.read [(3, 5#32), (7, 1#32)] a = Memory.read (Memory.write [(7, 1#32)] 3 5#32) a :=
  ⟨by decide, by decide, fun _ => rfl⟩
theorem witness_ResetAndLoadedState :
    [0x13#32].length ≤ Config.default.memWords.val ∧ 1023 < Config.default.memWords.val := by decide
theorem witness_LoadCopiesWordsFromZero :
    State.reset.Inv ∧ [0x13#32, 0x33#32].length ≤ State.reset.config.memWords.val := ⟨reset_inv, by decide⟩
/-- A running session, and one that meets the session invariant with accepted moves. -/
theorem witness_HostCannotWriteDuringRun : (Session.mk State.reset true).running = true := rfl
theorem witness_HostMovesKeepSessionInvariant :
    (Session.construct Config.default).Inv ∧
      ∃ y, Session.moves [.load [0x00500113#32], .start, .clock] (Session.construct Config.default) = .ok y :=
  ⟨⟨reset_inv, by decide⟩, _, rfl⟩
theorem witness_LoadImmediatePairLoadsAnyConstant :
    let s := (State.reset.placeWord 0 0xDEADC2B7#32).placeWord 1 0xEEF28293#32
    expand (.li 5#5 0xDEADBEEF#32) = [.lui 5#5 0xDEADC000#32, .addi 5#5 5#5 0xFFFFFEEF#32] ∧
      s.memRead s.pc.toNat = some (encode (.lui 5#5 0xDEADC000#32)) ∧
      s.memRead (s.pc.toNat + 1) = some (encode (.addi 5#5 5#5 0xFFFFFEEF#32)) := by decide

end Sys2Proof.Tests
end

/-! PROOF. Reset and the program load (10_state R22, 70_reset R96 to R99): what memory reads after words are put at
successive indices, and the state after reset and after the boot. -/

namespace Sys2Proof.Machine

/-! ## One word put in memory -/

/-- Putting a word keeps the canonical form, outside the memory too, where nothing is put. -/
theorem State.placeWord_wf {s : State} (hs : s.mem.wf s.config.memWords.val) (a : Nat) (v : Word) :
    (s.placeWord a v).mem.wf (s.placeWord a v).config.memWords.val := by
  rw [State.placeWord_config, State.placeWord_mem]
  split
  · next ha => exact Memory.write_wf hs ha v
  · exact hs

theorem State.memRead_placeWord_same {s : State} (hs : s.mem.wf s.config.memWords.val) {a : Nat}
    (ha : a < s.config.memWords.val) (v : Word) : (s.placeWord a v).memRead a = some v := by
  rw [State.memRead_eq_some, State.placeWord_config, State.placeWord_mem, if_pos ha]
  exact ⟨ha, Memory.read_write_same hs.1 a v⟩

theorem State.memRead_placeWord_other (s : State) {a b : Nat} (v : Word) (h : b ≠ a) :
    (s.placeWord a v).memRead b = s.memRead b := by
  have hread : (s.placeWord a v).mem.read b = s.mem.read b := by
    rw [State.placeWord_mem]
    split
    · exact Memory.read_write_other s.mem v h
    · rfl
  simp only [State.memRead, State.placeWord_config, hread]

/-! ## Words put at successive indices -/

@[simp] theorem State.placeWords_config (s : State) (a : Nat) (ws : List Word) :
    (s.placeWords a ws).config = s.config := (State.placeWords_fields ws a s).1

@[simp] theorem State.placeWords_regs (s : State) (a : Nat) (ws : List Word) :
    (s.placeWords a ws).regs = s.regs := (State.placeWords_fields ws a s).2.1

@[simp] theorem State.placeWords_pc (s : State) (a : Nat) (ws : List Word) :
    (s.placeWords a ws).pc = s.pc := (State.placeWords_fields ws a s).2.2

/-- An index before or after the range of the words reads as before. -/
theorem State.memRead_placeWords_outside (ws : List Word) (s : State) (a : Nat) {b : Nat}
    (h : b < a ∨ a + ws.length ≤ b) : (s.placeWords a ws).memRead b = s.memRead b := by
  induction ws generalizing s a with
  | nil => rfl
  | cons v vs ih =>
    rw [List.length_cons] at h
    calc ((s.placeWord a v).placeWords (a + 1) vs).memRead b
        = (s.placeWord a v).memRead b := ih _ _ (by omega)
      _ = s.memRead b := State.memRead_placeWord_other s v (by omega)

/-- In a canonical memory that has room for them, each word reads at its own index. -/
theorem State.memRead_placeWords_inside (ws : List Word) {s : State} (hs : s.mem.wf s.config.memWords.val) {a : Nat}
    (ha : a + ws.length ≤ s.config.memWords.val) (i : Nat) (hi : i < ws.length) :
    (s.placeWords a ws).memRead (a + i) = some ws[i] := by
  induction ws generalizing s a i with
  | nil => nomatch hi
  | cons v vs ih =>
    rw [List.length_cons] at ha
    cases i with
    | zero =>
      calc ((s.placeWord a v).placeWords (a + 1) vs).memRead a
          = (s.placeWord a v).memRead a := State.memRead_placeWords_outside vs _ _ (by omega)
        _ = some v := State.memRead_placeWord_same hs (by omega) v
    | succ i =>
      have hroom : a + 1 + vs.length ≤ (s.placeWord a v).config.memWords.val := by
        rw [State.placeWord_config]; omega
      rw [show a + (i + 1) = a + 1 + i by omega]
      exact ih (State.placeWord_wf hs a v) hroom i (Nat.lt_of_succ_lt_succ hi)

/-- A load that fits succeeds and puts its words from index 0 on. -/
theorem loadProgram_of_fits {ws : List Word} {s : State} (h : ws.length ≤ s.config.memWords.val) :
    loadProgram ws s = .ok (s.placeWords 0 ws) := if_pos h

/-! ## The state after reset -/

theorem State.resetWith_regs_get (c : Config) (i : Fin 32) : (State.resetWith c).regs[i] = 0#32 := by
  simp

theorem State.resetWith_readReg (c : Config) (i : RegIdx) : (State.resetWith c).readReg i = 0#32 := by
  unfold State.readReg
  split
  · rfl
  · exact State.resetWith_regs_get c ⟨i.toNat, i.isLt⟩

theorem State.resetWith_memRead {c : Config} {a : Nat} (h : a < c.memWords.val) :
    (State.resetWith c).memRead a = some 0#32 :=
  State.memRead_eq_some.mpr ⟨h, rfl⟩

/-- Settles O43: reset leaves 0 everywhere, and the load changes the words of its own range only. -/
theorem resetAndLoadedState : Obligations.ResetAndLoadedState := by
  intro c
  refine ⟨rfl, State.resetWith_readReg c, State.resetWith_regs_get c, fun a => State.resetWith_memRead, ?_⟩
  intro ws hfit
  refine ⟨(State.resetWith c).placeWords 0 ws, loadProgram_of_fits hfit, ?pc, ?regs, ?config, ?program, ?rest⟩
  case pc => exact State.placeWords_pc _ 0 ws
  case regs =>
    intro i
    rw [State.placeWords_regs]
    exact State.resetWith_regs_get c i
  case config => exact State.placeWords_config _ 0 ws
  case program =>
    intro a ha
    have hroom : 0 + ws.length ≤ c.memWords.val := by omega
    simpa using State.memRead_placeWords_inside ws (Memory.reset_wf c) hroom a ha
  case rest =>
    intro a hlen ha
    rw [State.memRead_placeWords_outside ws _ 0 (by omega)]
    exact State.resetWith_memRead ha

end Sys2Proof.Machine

/-! PROOF. The Decode stage's fields and immediates (30_encoding R39, R42, R45, R46, R48): the format that each
opcode selects, and what the I-type and U-type immediates hold. -/

namespace Sys2Proof

/-- The model's slice by its two end positions is the slice by its start and length. -/
theorem bits_eq_extractLsb' (w : Word) (hi lo : Nat) : bits w hi lo = w.extractLsb' lo (hi - lo + 1) := rfl

/-- Settles O1: each field is one slice of the word, read without looking at the opcode. -/
theorem fieldsAtFixedPositions : Obligations.FieldsAtFixedPositions := fun w =>
  ⟨bits_eq_extractLsb' w 6 0, bits_eq_extractLsb' w 11 7, bits_eq_extractLsb' w 14 12,
    bits_eq_extractLsb' w 19 15, bits_eq_extractLsb' w 24 20, bits_eq_extractLsb' w 31 25⟩

/-! ## The format of the immediate, decided by the opcode alone (R42) -/

theorem ne_of_not_mem_immOpcodes {op : BitVec 7} (h : op ∉ [opAluImm, opJalr, opAuipc, opLui, opJal]) :
    op ≠ opAluImm ∧ op ≠ opJalr ∧ op ≠ opAuipc ∧ op ≠ opLui ∧ op ≠ opJal := by
  simpa only [List.mem_cons, List.not_mem_nil, or_false, not_or] using h

theorem decodeFields_imm_of_iType {w : Word} (h : w.extractLsb' 0 7 = opAluImm ∨ w.extractLsb' 0 7 = opJalr) :
    (decodeFields w).imm = immI w := if_pos h

theorem decodeFields_imm_of_uType {w : Word} (h : w.extractLsb' 0 7 = opLui ∨ w.extractLsb' 0 7 = opAuipc) :
    (decodeFields w).imm = immU w := by
  have notIType : ¬ (w.extractLsb' 0 7 = opAluImm ∨ w.extractLsb' 0 7 = opJalr) := by
    rcases h with h | h <;> rw [h] <;> decide
  exact (if_neg notIType).trans (if_pos h)

theorem decodeFields_imm_of_other {w : Word}
    (h : w.extractLsb' 0 7 ∉ [opAluImm, opJalr, opAuipc, opLui, opJal]) : (decodeFields w).imm = 0#32 := by
  obtain ⟨hAluImm, hJalr, hAuipc, hLui, hJal⟩ := ne_of_not_mem_immOpcodes h
  calc (decodeFields w).imm
      = if w.extractLsb' 0 7 = opLui ∨ w.extractLsb' 0 7 = opAuipc then immU w
        else if w.extractLsb' 0 7 = opJal then immJ w else 0#32 := if_neg (not_or.mpr ⟨hAluImm, hJalr⟩)
    _ = if w.extractLsb' 0 7 = opJal then immJ w else 0#32 := if_neg (not_or.mpr ⟨hLui, hAuipc⟩)
    _ = 0#32 := if_neg hJal

/-! ## The I-type immediate (R45) -/

/-- A bit below 12 is a bit of the field; from bit 12 up, every bit is the sign. -/
theorem getLsbD_immI (w : Word) {k : Nat} (hk : k < 32) :
    (immI w).getLsbD k = if k < 12 then w.getLsbD (20 + k) else w.getLsbD 31 := by
  rw [immI, BitVec.getLsbD_signExtend]
  simp only [hk, decide_true, Bool.true_and]
  split
  · next hlow => simp [bits_eq_extractLsb', hlow]
  · simp [bits_eq_extractLsb', BitVec.msb_eq_getLsbD_last]

theorem immI_eq_sshiftRight (w : Word) : immI w = w.sshiftRight 20 := by
  refine BitVec.eq_of_getLsbD_eq fun k hk => ?_
  rw [getLsbD_immI w hk, BitVec.getLsbD_sshiftRight, BitVec.msb_eq_getLsbD_last]
  split
  · next hlow => simp [show 20 + k < 32 by omega, show ¬ 32 ≤ k by omega]
  · next hhigh => simp [show ¬ 20 + k < 32 by omega, show ¬ 32 ≤ k by omega]

theorem extractLsb'_immI (w : Word) : (immI w).extractLsb' 0 12 = w.extractLsb' 20 12 := by
  refine BitVec.eq_of_getLsbD_eq fun k hk => ?_
  simp [getLsbD_immI w (show k < 32 by omega), hk]

/-- The immediate keeps the signed value of its 12-bit field. -/
theorem toInt_immI (w : Word) : (immI w).toInt = (w.extractLsb' 20 12).toInt :=
  BitVec.toInt_signExtend_of_le (by decide)

theorem immI_toInt_range (w : Word) : -2048 ≤ (immI w).toInt ∧ (immI w).toInt ≤ 2047 := by
  rw [toInt_immI]
  exact ⟨BitVec.le_toInt _, Int.le_of_lt_add_one BitVec.toInt_lt⟩

/-- Settles O2: both opcodes select the I-type immediate, which is described bit by bit. -/
theorem iTypeImmediateSignExtended : Obligations.ITypeImmediateSignExtended := by
  refine ⟨fun w hop => ?_, by decide, by decide⟩
  rw [decodeFields_imm_of_iType hop]
  refine ⟨rfl, immI_eq_sshiftRight w, extractLsb'_immI w, fun k hsign hk => ?_, immI_toInt_range w⟩
  rw [getLsbD_immI w hk, if_neg (Nat.not_lt.mpr hsign)]

/-! ## The U-type immediate (R46) -/

/-- The mask of R46 keeps exactly the bits from 12 up. -/
theorem getLsbD_immU (w : Word) {k : Nat} (hk : k < 32) :
    (immU w).getLsbD k = if k < 12 then false else w.getLsbD k := by
  rw [immU, BitVec.getLsbD_and]
  interval_cases k <;> simp

/-- Settles O3: above bit 11 the mask keeps each bit, below it clears each bit. -/
theorem uTypeImmediateMasked : Obligations.UTypeImmediateMasked := by
  refine ⟨fun w hop => ?_, by decide⟩
  rw [decodeFields_imm_of_uType hop]
  refine ⟨rfl, ?high, ?low⟩
  case high =>
    refine BitVec.eq_of_getLsbD_eq fun k hk => ?_
    simp [getLsbD_immU w (show 12 + k < 32 by omega), hk]
  case low =>
    refine BitVec.eq_of_getLsbD_eq fun k hk => ?_
    simp [getLsbD_immU w (show k < 32 by omega), hk]

/-! ## The other opcodes (R48) -/

/-- Outside the five opcodes only the two ALU_REG arms of the dispatch are left, and they read no immediate. -/
theorem select_of_other {d : Decoded} (h : d.opcode ∉ [opAluImm, opJalr, opAuipc, opLui, opJal]) :
    select d =
      if d.opcode = opAluReg ∧ d.funct3 = f3AddSub ∧ d.funct7 = f7Add then some (.add d.rd d.rs1 d.rs2)
      else if d.opcode = opAluReg ∧ d.funct3 = f3AddSub ∧ d.funct7 = f7Sub then some (.sub d.rd d.rs1 d.rs2)
      else none := by
  obtain ⟨hAluImm, hJalr, hAuipc, hLui, hJal⟩ := ne_of_not_mem_immOpcodes h
  simp only [select, hLui, hAuipc, hJal, hJalr, hAluImm, false_and, if_false]

/-- Settles O5: no format applies, and the arms that are left give the same for both records. -/
theorem otherOpcodesHaveZeroImmediate : Obligations.OtherOpcodesHaveZeroImmediate :=
  ⟨fun _ hop => decodeFields_imm_of_other hop, by decide,
    fun d v hop => (select_of_other (d := { d with imm := v }) hop).trans (select_of_other hop).symm⟩

end Sys2Proof

/-! PROOF. The Fetch stage, the step and the write-back (40_fetch R58, R59, R62): what a fetch that was made says,
which meaning a step runs, and the one register write of every instruction. -/

namespace Sys2Proof.Machine

/-! ## The fetch -/

/-- A fetch that was made had a word at the pc, and moved the pc only. -/
theorem State.fetch_eq_some {s s1 : State} {w : Word} :
    s.fetch = some (w, s1) ↔ s.memRead s.pc.toNat = some w ∧ s1 = s.setPc (s.pc + 1#32) := by
  constructor
  · intro h
    rcases State.stopped_or_word s with hstop | ⟨v, hv⟩
    · rw [State.fetch_of_stopped hstop] at h
      nomatch h
    · rw [State.fetch_of_memRead hv] at h
      cases h
      exact ⟨hv, rfl⟩
  · rintro ⟨hw, rfl⟩
    exact State.fetch_of_memRead hw

/-! ## The write-back -/

theorem State.hardwired_of_switch_off {s : State} (h : s.config.x0Hardwired = false) (i : RegIdx) :
    s.hardwired i = false := by
  rw [State.hardwired, h, Bool.false_and]

/-- Result, frame and completion of every instruction at once, from the one equation for `exec`. -/
theorem exec_onlyWrites (i : Instr) (s : State) :
    ∃ t, exec i s = .next t ∧ OnlyWrites s t i.rd (writeBackValue s i) (pcAfter s i) :=
  ⟨_, exec_eq i s, onlyWrites_of_write s i.rd _ _⟩

/-- Settles O16: `exec` is one register write, the no-op is none, and the fetch moves the pc only. -/
theorem oneWriteBackPerInstruction : Obligations.OneWriteBackPerInstruction := by
  refine ⟨fun i s => ?instruction, fun i s hoff => ?switchOff, fun c s => ⟨s, rfl, rfl⟩, fun s s1 w h => ?fetch⟩
  case instruction =>
    obtain ⟨t, ht, hwrites⟩ := exec_onlyWrites i s
    exact ⟨t, ht, hwrites.written, hwrites.others⟩
  case switchOff =>
    obtain ⟨t, ht, hwrites⟩ := exec_onlyWrites i s
    refine ⟨t, ht, ?_⟩
    simpa [State.hardwired_of_switch_off hoff] using hwrites.written
  case fetch =>
    obtain ⟨-, rfl⟩ := State.fetch_eq_some.mp h
    exact State.setPc_regs s _

/-! ## The step by what the word at the pc selects -/

theorem step_of_instr {s : State} {w : Word} {i : Instr} (h : s.memRead s.pc.toNat = some w)
    (hi : decode w = .instr i) : step s = exec i (s.setPc (s.pc + 1#32)) := by
  rw [step_of_memRead h, hi, execute]

theorem step_of_unrecognised {s : State} {w : Word} {c : Unrecognised} (h : s.memRead s.pc.toNat = some w)
    (hc : decode w = .unrecognised c) : step s = .next (s.setPc (s.pc + 1#32)) := by
  rw [step_of_memRead h, hc, execute, execUnrecognised]

/-- Only JAL and JALR write the pc; every other instruction leaves it where the fetch put it. -/
theorem pcAfter_of_not_jump (s : State) {w : Word} {i : Instr} (hi : decode w = .instr i)
    (hjump : isJump w = false) : pcAfter s i = s.pc := by
  rw [isJump, hi] at hjump
  cases i with
  | jal => nomatch hjump
  | jalr => nomatch hjump
  | lui | auipc | addi | add | sub => rfl

theorem step_pc_of_not_jump {s t : State} {w : Word} (h : s.memRead s.pc.toNat = some w) (hstep : step s = .next t)
    (hjump : isJump w = false) : t.pc = s.pc + 1#32 := by
  cases hd : decode w with
  | unrecognised c =>
    rw [step_of_unrecognised h hd] at hstep
    cases hstep
    rfl
  | instr i =>
    rw [step_of_instr h hd, exec_eq] at hstep
    cases hstep
    exact pcAfter_of_not_jump _ hd hjump

/-- Settles O13: the fetch of the word at the pc, after which an unrecognised word does nothing more. -/
theorem fetchReadsAndAdvancesByOne : Obligations.FetchReadsAndAdvancesByOne := fun s _ h =>
  ⟨s.setPc (s.pc + 1#32), State.fetch_of_memRead h, State.setPc_pc s _, State.setPc_regs s _, State.setPc_mem s _,
    State.setPc_config s _, fun _ hc => step_of_unrecognised h hc⟩

/-- Settles O14: a step by what its word selects, and the pc of a step whose word is no jump. -/
theorem stepRunsDecodedInstruction : Obligations.StepRunsDecodedInstruction := fun _ _ h =>
  ⟨fun _ hi => step_of_instr h hi, fun _ hc => step_of_unrecognised h hc,
    fun _ hstep hjump => step_pc_of_not_jump h hstep hjump⟩

end Sys2Proof.Machine

/-! PROOF. ADDI, ADD and SUB (43_alu R75 to R77): the words of their rows in the table of 30_encoding R50, and a step
at such a word as one register write. -/

namespace Sys2Proof

/-! ## The rows of the table -/

/-- Where the mask of a row covers a slice, a word of the row has the slice of the row's match. -/
theorem extractLsb'_of_and_eq {w mask value : Word} (h : w &&& mask = value) (start len : Nat)
    (hmask : mask.extractLsb' start len = BitVec.allOnes len) :
    w.extractLsb' start len = value.extractLsb' start len := by
  rw [← h, BitVec.extractLsb'_and, hmask, BitVec.and_allOnes]

theorem decode_of_select_some {w : Word} {i : Instr} (h : select (decodeFields w) = some i) :
    decode w = .instr i := by
  rw [decode, h]

theorem decode_of_select_none {w : Word} (h : select (decodeFields w) = none) :
    decode w = .unrecognised (unrecognisedClass w) := by
  rw [decode, h]

/-- Under the ALU_IMM opcode the dispatch has one arm, and looks at `funct3` only. -/
theorem select_of_aluImm {d : Decoded} (h : d.opcode = opAluImm) :
    select d = if d.funct3 = f3AddSub then some (.addi d.rd d.rs1 d.imm) else none := by
  simp [select, h, opAluImm, opLui, opAuipc, opJal, opJalr, opAluReg]

theorem not_mem_immOpcodes_of_aluReg {op : BitVec 7} (h : op = opAluReg) :
    op ∉ [opAluImm, opJalr, opAuipc, opLui, opJal] := by
  rw [h]; decide

theorem decode_of_addi_row {w : Word} (h : w &&& 0x0000707F#32 = 0x00000013#32) :
    decode w = .instr (.addi (w.extractLsb' 7 5) (w.extractLsb' 15 5) (immI w)) := by
  have hop : (decodeFields w).opcode = opAluImm := extractLsb'_of_and_eq h 0 7 (by decide)
  have hf3 : (decodeFields w).funct3 = f3AddSub := extractLsb'_of_and_eq h 12 3 (by decide)
  have himm : (decodeFields w).imm = immI w := decodeFields_imm_of_iType (.inl hop)
  refine decode_of_select_some ?_
  rw [select_of_aluImm hop, if_pos hf3, himm]
  rfl

theorem opcode_of_add_row {w : Word} (h : w &&& 0xFE00707F#32 = 0x00000033#32) :
    (decodeFields w).opcode = opAluReg := extractLsb'_of_and_eq h 0 7 (by decide)

theorem decode_of_add_row {w : Word} (h : w &&& 0xFE00707F#32 = 0x00000033#32) :
    decode w = .instr (.add (w.extractLsb' 7 5) (w.extractLsb' 15 5) (w.extractLsb' 20 5)) := by
  have hop : (decodeFields w).opcode = opAluReg := opcode_of_add_row h
  have hf3 : (decodeFields w).funct3 = f3AddSub := extractLsb'_of_and_eq h 12 3 (by decide)
  have hf7 : (decodeFields w).funct7 = f7Add := extractLsb'_of_and_eq h 25 7 (by decide)
  refine decode_of_select_some ?_
  rw [select_of_other (not_mem_immOpcodes_of_aluReg hop), if_pos ⟨hop, hf3, hf7⟩]
  rfl

theorem decode_of_sub_row {w : Word} (h : w &&& 0xFE00707F#32 = 0x40000033#32) :
    decode w = .instr (.sub (w.extractLsb' 7 5) (w.extractLsb' 15 5) (w.extractLsb' 20 5)) := by
  have hop : (decodeFields w).opcode = opAluReg := extractLsb'_of_and_eq h 0 7 (by decide)
  have hf3 : (decodeFields w).funct3 = f3AddSub := extractLsb'_of_and_eq h 12 3 (by decide)
  have hf7 : (decodeFields w).funct7 = f7Sub := extractLsb'_of_and_eq h 25 7 (by decide)
  have notAdd : (decodeFields w).funct7 ≠ f7Add := by rw [hf7]; decide
  refine decode_of_select_some ?_
  rw [select_of_other (not_mem_immOpcodes_of_aluReg hop), if_neg fun ⟨_, _, hadd⟩ => notAdd hadd,
    if_pos ⟨hop, hf3, hf7⟩]
  rfl

theorem decode_of_aluImm_other_funct3 {w : Word} (hop : w.extractLsb' 0 7 = opAluImm)
    (hf3 : w.extractLsb' 12 3 ≠ f3AddSub) : decode w = .unrecognised (unrecognisedClass w) :=
  decode_of_select_none ((select_of_aluImm (d := decodeFields w) hop).trans (if_neg hf3))

end Sys2Proof

namespace Sys2Proof.Machine

/-! ## A step at an instruction's word -/

/-- `OnlyWrites` names the pc it ends with, so the fetch's increment before it changes nothing. -/
theorem OnlyWrites.of_setPc {s t : State} {pc1 : Word} {rd : RegIdx} {v target : Word}
    (h : OnlyWrites (s.setPc pc1) t rd v target) : OnlyWrites s t rd v target :=
  ⟨h.written, h.others, h.pc, h.mem, h.config⟩

/-- The result, the frame and the completion of a step, for the word of any instruction. -/
theorem step_onlyWrites {s : State} {w : Word} {i : Instr} (h : s.memRead s.pc.toNat = some w)
    (hi : decode w = .instr i) :
    ∃ t, step s = .next t ∧
      OnlyWrites s t i.rd (writeBackValue (s.setPc (s.pc + 1#32)) i) (pcAfter (s.setPc (s.pc + 1#32)) i) := by
  obtain ⟨t, ht, hwrites⟩ := exec_onlyWrites i (s.setPc (s.pc + 1#32))
  exact ⟨t, (step_of_instr h hi).trans ht, hwrites.of_setPc⟩

theorem State.hardwired_of_ne_zero (s : State) {i : RegIdx} (h : i ≠ 0#5) : s.hardwired i = false := by
  simp [State.hardwired, h]

theorem State.readReg_of_hardwired {s : State} {i : RegIdx} (h : s.hardwired i = true) : s.readReg i = 0#32 :=
  if_pos h

theorem OnlyWrites.readReg_of_ne_zero {s t : State} {rd : RegIdx} {v target : Word}
    (h : OnlyWrites s t rd v target) (hrd : rd ≠ 0#5) : t.readReg rd = v := by
  rw [h.written, s.hardwired_of_ne_zero hrd]
  rfl

/-- Writing a register's own value back changes no register, the hardwired one included. -/
theorem OnlyWrites.readReg_of_own_value {s t : State} {rd : RegIdx} {target : Word}
    (h : OnlyWrites s t rd (s.readReg rd) target) (r : RegIdx) : t.readReg r = s.readReg r := by
  by_cases hr : r = rd
  · subst hr
    rw [h.written]
    split
    · next hw => exact (State.readReg_of_hardwired hw).symm
    · rfl
  · exact h.others r hr

/-! ## The word at the pc -/

@[simp] theorem State.readReg_placeWord (s : State) (a : Nat) (v : Word) (i : RegIdx) :
    (s.placeWord a v).readReg i = s.readReg i := by
  simp [State.readReg, State.hardwired]

theorem State.reset_memRead_withFetchWord (w : Nat) :
    (State.reset.withFetchWord 32 w).memRead 0 = some (BitVec.ofNat 32 (w % 2 ^ 32)) :=
  State.memRead_placeWord_same (Memory.reset_wf Config.default) (by decide) _

theorem State.reset_readReg_withFetchWord (nbits w : Nat) (i : RegIdx) :
    (State.reset.withFetchWord nbits w).readReg i = 0#32 :=
  (State.readReg_placeWord _ _ _ i).trans (State.resetWith_readReg Config.default i)

/-! ## The three instructions -/

/-- Settles O22: `exec` and the step of the ADDI row are one register write; no other `funct3` selects an
instruction; the canonical no-op writes register 0 its own value back. -/
theorem addiAddsImmediate : Obligations.AddiAddsImmediate := by
  refine ⟨fun rd rs1 imm s => exec_onlyWrites (.addi rd rs1 imm) s,
    fun s w hw hrow => step_onlyWrites hw (decode_of_addi_row hrow), ?otherFunct3, ?nop, ?documentExample⟩
  case otherFunct3 =>
    intro w hop hf3 i hi
    rw [decode_of_aluImm_other_funct3 hop hf3] at hi
    nomatch hi
  case nop =>
    intro s hw
    have hdecode : decode 0x00000013#32 = .instr (.addi 0#5 0#5 0#32) := by decide
    obtain ⟨t, ht, hwrites⟩ := step_onlyWrites hw hdecode
    have hvalue : writeBackValue (s.setPc (s.pc + 1#32)) (.addi 0#5 0#5 0#32) = s.readReg 0#5 :=
      BitVec.add_zero _
    rw [hvalue] at hwrites
    exact ⟨t, ht, hwrites.readReg_of_own_value⟩
  case documentExample =>
    have hdecode : decode 0x00500113#32 = .instr (.addi 2#5 0#5 5#32) := by decide
    obtain ⟨t, ht, hwrites⟩ := step_onlyWrites (State.reset_memRead_withFetchWord 0x00500113) hdecode
    refine ⟨t, ht, ?_, hwrites.pc, fun r hr => ?_⟩
    · calc t.readReg 2#5
          = (State.reset.withFetchWord 32 0x00500113).readReg 0#5 + 5#32 := hwrites.readReg_of_ne_zero (by decide)
        _ = 5#32 := by rw [State.reset_readReg_withFetchWord, BitVec.zero_add]
    · exact (hwrites.others r hr).trans (State.reset_readReg_withFetchWord 32 _ r)

/-- Settles O23: `exec` and the step of the ADD row are one register write, and the immediate of the row is 0. -/
theorem addAddsRegisters : Obligations.AddAddsRegisters := by
  refine ⟨fun rd rs1 rs2 s => exec_onlyWrites (.add rd rs1 rs2) s,
    fun s w hw hrow => ⟨?immediate, ?row⟩, ?documentExample⟩
  case immediate => exact decodeFields_imm_of_other (not_mem_immOpcodes_of_aluReg (opcode_of_add_row hrow))
  case row => exact step_onlyWrites hw (decode_of_add_row hrow)
  case documentExample =>
    intro s h2 h3 hw
    have hdecode : decode 0x003101B3#32 = .instr (.add 3#5 2#5 3#5) := by decide
    obtain ⟨t, ht, hwrites⟩ := step_onlyWrites hw hdecode
    refine ⟨t, ht, ?_⟩
    calc t.readReg 3#5
        = s.readReg 2#5 + s.readReg 3#5 := hwrites.readReg_of_ne_zero (by decide)
      _ = 11#32 := by rw [h2, h3]; rfl

/-- Settles O24: `exec` and the step of the SUB row are one register write, which is of 0 for equal sources. -/
theorem subSubtractsRegisters : Obligations.SubSubtractsRegisters := by
  refine ⟨fun rd rs1 rs2 s => exec_onlyWrites (.sub rd rs1 rs2) s,
    fun s w hw hrow => step_onlyWrites hw (decode_of_sub_row hrow), ?equalSources, ?documentExample⟩
  case equalSources =>
    intro rd rs s
    obtain ⟨t, ht, hwrites⟩ := exec_onlyWrites (.sub rd rs rs) s
    have hvalue : writeBackValue s (.sub rd rs rs) = 0#32 := BitVec.sub_self _
    rw [hvalue] at hwrites
    exact ⟨t, ht, hwrites.written.trans (ite_self _)⟩
  case documentExample =>
    intro s h2 h3 hw
    have hdecode : decode 0x402181B3#32 = .instr (.sub 3#5 3#5 2#5) := by decide
    obtain ⟨t, ht, hwrites⟩ := step_onlyWrites hw hdecode
    refine ⟨t, ht, ?_⟩
    calc t.readReg 3#5
        = s.readReg 3#5 - s.readReg 2#5 := hwrites.readReg_of_ne_zero (by decide)
      _ = 1#32 := by rw [h2, h3]; rfl

end Sys2Proof.Machine

/-! PROOF. The program load from a state that meets the invariant (70_reset R97): the words at their indices, and what
the load leaves unchanged. -/

namespace Sys2Proof.Machine

/-- A load of no words puts nothing. -/
@[simp] theorem State.placeWords_nil (s : State) (a : Nat) : s.placeWords a [] = s := rfl

/-- Settles O44: the indices below the number of words are inside the range of the words, and all others are past it. -/
theorem loadCopiesWordsFromZero : Obligations.LoadCopiesWordsFromZero := by
  intro ws s hinv hfit
  obtain ⟨hwf, -⟩ := hinv
  refine ⟨s.placeWords 0 ws, loadProgram_of_fits hfit, State.placeWords_regs s 0 ws, State.placeWords_pc s 0 ws,
    State.placeWords_config s 0 ws, ?words, ?rest, ?empty⟩
  case words =>
    intro a ha
    have hroom : 0 + ws.length ≤ s.config.memWords.val := by omega
    simpa using State.memRead_placeWords_inside ws hwf hroom a ha
  case rest =>
    intro a hlen
    exact State.memRead_placeWords_outside ws s 0 (by omega)
  case empty =>
    rintro rfl
    exact State.placeWords_nil s 0

end Sys2Proof.Machine

/-! PROOF. The dispatch, the J-type immediate, the rows of the opcode map and the encoder (30_encoding R41, R47, R50,
40_fetch R61): a word decodes to an instruction exactly when it lies in the row of the instruction and holds its
operands, and the encoder writes such a word. -/

namespace Sys2Proof

open Sys2Proof.Machine

/-! ## The dispatch -/

/-- The values of opcode, `funct3` and `funct7` by which the dispatch takes the arm of an instruction (40_fetch R61). -/
def Instr.SelectedBy (d : Decoded) : Instr → Prop
  | .lui _ _ => d.opcode = opLui
  | .auipc _ _ => d.opcode = opAuipc
  | .jal _ _ => d.opcode = opJal
  | .jalr _ _ _ _ => d.opcode = opJalr
  | .addi _ _ _ => d.opcode = opAluImm ∧ d.funct3 = f3AddSub
  | .add _ _ _ => d.opcode = opAluReg ∧ d.funct3 = f3AddSub ∧ d.funct7 = f7Add
  | .sub _ _ _ => d.opcode = opAluReg ∧ d.funct3 = f3AddSub ∧ d.funct7 = f7Sub

/-- The instruction of the same kind with the operands of a decoded record. -/
def Instr.withOperands (d : Decoded) : Instr → Instr
  | .lui _ _ => .lui d.rd d.imm
  | .auipc _ _ => .auipc d.rd d.imm
  | .jal _ _ => .jal d.rd d.imm
  | .jalr _ _ _ _ => .jalr d.rd d.rs1 d.funct3 d.imm
  | .addi _ _ _ => .addi d.rd d.rs1 d.imm
  | .add _ _ _ => .add d.rd d.rs1 d.rs2
  | .sub _ _ _ => .sub d.rd d.rs1 d.rs2

/-- The arms exclude each other: the opcodes are different numbers, and so are the two `funct7`. -/
theorem select_of_selectedBy {d : Decoded} {i : Instr} (h : i.SelectedBy d) : select d = some (i.withOperands d) := by
  cases i <;>
    simp_all [Instr.SelectedBy, Instr.withOperands, select, opLui, opAuipc, opJal, opJalr, opAluImm, opAluReg, f7Add,
      f7Sub]

theorem select_eq_some {d : Decoded} {i : Instr} : select d = some i ↔ i.SelectedBy d ∧ i = i.withOperands d := by
  constructor
  · intro h
    unfold select at h
    split_ifs at h with hlui hauipc hjal hjalr haddi hadd hsub <;> cases h
    · exact ⟨hlui, rfl⟩
    · exact ⟨hauipc, rfl⟩
    · exact ⟨hjal, rfl⟩
    · exact ⟨hjalr, rfl⟩
    · exact ⟨haddi, rfl⟩
    · exact ⟨hadd, rfl⟩
    · exact ⟨hsub, rfl⟩
  · rintro ⟨hsel, hops⟩
    rw [hops]
    exact select_of_selectedBy hsel

/-- Settles O7: the arm of each instruction, with its opcode and function fields as numbers. -/
theorem dispatchArmByArm : Obligations.DispatchArmByArm := by
  intro d i
  rw [select_eq_some]
  cases i <;>
    simp only [Instr.SelectedBy, Instr.withOperands, Instr.lui.injEq, Instr.auipc.injEq, Instr.jal.injEq,
      Instr.jalr.injEq, Instr.addi.injEq, Instr.add.injEq, Instr.sub.injEq, and_assoc] <;>
    rfl

/-! ## The J-type immediate (R47) -/

theorem getLsbD_immJ (w : Word) {k : Nat} (hk : k < 32) :
    (immJ w).getLsbD k =
      if k = 0 then false
      else if k < 11 then w.getLsbD (20 + k)
      else if k = 11 then w.getLsbD 20
      else if k < 20 then w.getLsbD k
      else w.getLsbD 31 := by
  interval_cases k <;>
    simp only [immJ, bits_eq_extractLsb', BitVec.getLsbD_signExtend, BitVec.getLsbD_append,
      BitVec.msb_eq_getLsbD_last] <;>
    simp

theorem decodeFields_imm_of_jal {w : Word} (h : w.extractLsb' 0 7 = opJal) : (decodeFields w).imm = immJ w := by
  have hop : bits w 6 0 = opJal := h
  change immOf w = immJ w
  simp [immOf, hop, opAluImm, opJalr, opLui, opAuipc, opJal]

theorem bits_immJ_10_1 (w : Word) : bits (immJ w) 10 1 = bits w 30 21 := by
  refine Laws.bits_ext fun k hk => ?_
  have hk : k < 10 := hk
  simp [bits_eq_extractLsb', hk, getLsbD_immJ w (show 1 + k < 32 by omega), show 1 + k < 11 by omega,
    show 20 + (1 + k) = 21 + k by omega]

theorem bits_immJ_11 (w : Word) : bits (immJ w) 11 11 = bits w 20 20 := by
  refine Laws.bits_ext fun k hk => ?_
  obtain rfl : k = 0 := by omega
  simpa [bits_eq_extractLsb'] using getLsbD_immJ w (show 11 < 32 by decide)

theorem bits_immJ_19_12 (w : Word) : bits (immJ w) 19 12 = bits w 19 12 := by
  refine Laws.bits_ext fun k hk => ?_
  have hk : k < 8 := hk
  simp [bits_eq_extractLsb', hk, getLsbD_immJ w (show 12 + k < 32 by omega), show 12 + k < 20 by omega,
    show ¬ 12 + k < 11 by omega, show 12 + k ≠ 11 by omega]

theorem bits_immJ_20 (w : Word) : bits (immJ w) 20 20 = bits w 31 31 := by
  refine Laws.bits_ext fun k hk => ?_
  obtain rfl : k = 0 := by omega
  simpa [bits_eq_extractLsb'] using getLsbD_immJ w (show 20 < 32 by decide)

/-- The immediate is a sign-extended value of 21 bits, and it is even. -/
theorem immJ_toInt_range (w : Word) : -1048576 ≤ (immJ w).toInt ∧ (immJ w).toInt ≤ 1048574 := by
  have htoInt := BitVec.toInt_signExtend_of_le
    (x := bits w 31 31 ++ bits w 19 12 ++ bits w 20 20 ++ bits w 30 21 ++ 0b0#1) (show 21 ≤ 32 by decide)
  have hlow : -1048576 ≤ (immJ w).toInt := htoInt ▸ BitVec.le_toInt _
  have hhigh : (immJ w).toInt < 1048576 := htoInt ▸ BitVec.toInt_lt
  have notOdd : (immJ w).toInt ≠ (1048575#32).toInt := by
    intro h
    have hbit := getLsbD_immJ w (k := 0) (by decide)
    rw [BitVec.eq_of_toInt_eq h] at hbit
    nomatch hbit
  rw [show (1048575#32).toInt = 1048575 by decide] at notOdd
  omega

/-- Settles O4: the opcode JAL selects the J-type immediate, which is described bit by bit. -/
theorem jTypeImmediateReassembled : Obligations.JTypeImmediateReassembled := by
  refine ⟨fun w hop => ?_, by decide, by decide⟩
  rw [decodeFields_imm_of_jal hop]
  refine ⟨getLsbD_immJ w (by decide), bits_immJ_10_1 w, getLsbD_immJ w (by decide), bits_immJ_19_12 w,
    fun k hsign hk => ?_, immJ_toInt_range w⟩
  rw [getLsbD_immJ w hk, if_neg (by omega), if_neg (by omega), if_neg (by omega), if_neg (by omega)]

/-! ## The formats put together again from the slices of a word (R41) -/

theorem encodeR_slices (w : Word) :
    encodeR (bits w 31 25) (bits w 24 20) (bits w 19 15) (bits w 14 12) (bits w 11 7) (bits w 6 0) = w := by
  simp only [encodeR, bits_eq_extractLsb']
  iterate 5 rw [BitVec.extractLsb'_append_extractLsb'_eq_extractLsb' (by rfl)]
  exact BitVec.extractLsb'_eq_self

theorem bits_immI (w : Word) : bits (immI w) 11 0 = bits w 31 20 := extractLsb'_immI w

theorem encodeI_slices (w : Word) :
    encodeI (immI w) (bits w 19 15) (bits w 14 12) (bits w 11 7) (bits w 6 0) = w := by
  rw [encodeI, bits_immI]
  simp only [bits_eq_extractLsb']
  iterate 4 rw [BitVec.extractLsb'_append_extractLsb'_eq_extractLsb' (by rfl)]
  exact BitVec.extractLsb'_eq_self

theorem bits_immU (w : Word) : bits (immU w) 31 12 = bits w 31 12 := by
  refine Laws.bits_ext fun k hk => ?_
  have hk : k < 20 := hk
  simp [bits_eq_extractLsb', hk, getLsbD_immU w (show 12 + k < 32 by omega)]

theorem encodeU_slices (w : Word) : encodeU (immU w) (bits w 11 7) (bits w 6 0) = w := by
  rw [encodeU, bits_immU]
  simp only [bits_eq_extractLsb']
  iterate 2 rw [BitVec.extractLsb'_append_extractLsb'_eq_extractLsb' (by rfl)]
  exact BitVec.extractLsb'_eq_self

theorem encodeJ_slices (w : Word) : encodeJ (immJ w) (bits w 11 7) (bits w 6 0) = w := by
  rw [encodeJ, bits_immJ_20, bits_immJ_10_1, bits_immJ_11, bits_immJ_19_12]
  simp only [bits_eq_extractLsb']
  iterate 5 rw [BitVec.extractLsb'_append_extractLsb'_eq_extractLsb' (by rfl)]
  exact BitVec.extractLsb'_eq_self

theorem immU_eq_append (w : Word) : immU w = bits w 31 12 ++ 0#12 := by
  refine Laws.bits_ext fun k hk => ?_
  rw [getLsbD_immU w hk, BitVec.getLsbD_append, bits_eq_extractLsb', BitVec.getLsbD_extractLsb']
  split
  · simp
  · next hk12 => simp [show k - 12 < 20 by omega, show 12 + (k - 12) = k by omega]

/-! ## The operands read back from the formats -/

section
variable (imm : Word) (rd rs1 rs2 : RegIdx) (funct3 : BitVec 3) (funct7 op : BitVec 7)

theorem rs1_encodeR : (encodeR funct7 rs2 rs1 funct3 rd op).extractLsb' 15 5 = rs1 := by
  simp (disch := omega) only [encodeR, BitVec.extractLsb'_append_eq_of_le]
  exact BitVec.extractLsb'_append_eq_right

theorem rs2_encodeR : (encodeR funct7 rs2 rs1 funct3 rd op).extractLsb' 20 5 = rs2 := by
  simp (disch := omega) only [encodeR, BitVec.extractLsb'_append_eq_of_le]
  exact BitVec.extractLsb'_append_eq_right

theorem rs1_encodeI : (encodeI imm rs1 funct3 rd op).extractLsb' 15 5 = rs1 := by
  simp (disch := omega) only [encodeI, BitVec.extractLsb'_append_eq_of_le]
  exact BitVec.extractLsb'_append_eq_right

theorem funct3_encodeI : (encodeI imm rs1 funct3 rd op).extractLsb' 12 3 = funct3 := by
  simp (disch := omega) only [encodeI, BitVec.extractLsb'_append_eq_of_le]
  exact BitVec.extractLsb'_append_eq_right

theorem immI_encodeI (h : fitsI imm = true) : immI (encodeI imm rs1 funct3 rd op) = imm := by
  have hfield : (encodeI imm rs1 funct3 rd op).extractLsb' 20 12 = imm.setWidth 12 := by
    simp (disch := omega) only [encodeI, BitVec.extractLsb'_append_eq_of_le]
    exact BitVec.extractLsb'_eq_self
  calc immI (encodeI imm rs1 funct3 rd op)
      = (imm.setWidth 12).signExtend 32 := congrArg (BitVec.signExtend 32) hfield
    _ = imm := eq_of_beq h

theorem immU_encodeU (h : fitsU imm = true) : immU (encodeU imm rd op) = imm := by
  have hlow : imm.setWidth 12 = 0#12 := eq_of_beq h
  have hfield : bits (encodeU imm rd op) 31 12 = bits imm 31 12 := by
    simp (disch := omega) only [bits_eq_extractLsb', encodeU, BitVec.extractLsb'_append_eq_of_le]
    exact BitVec.extractLsb'_eq_self
  rw [immU_eq_append, hfield, ← hlow, BitVec.setWidth_eq_extractLsb' (by decide), bits_eq_extractLsb',
    BitVec.extractLsb'_append_extractLsb'_eq_extractLsb' (by rfl)]
  exact BitVec.extractLsb'_eq_self

theorem immJ_encodeJ (h : fitsJ imm = true) : immJ (encodeJ imm rd op) = imm := by
  obtain ⟨hsign, heven⟩ := Bool.and_eq_true_iff.mp h
  have hfields : bits (encodeJ imm rd op) 31 31 = bits imm 20 20 ∧ bits (encodeJ imm rd op) 30 21 = bits imm 10 1 ∧
      bits (encodeJ imm rd op) 20 20 = bits imm 11 11 ∧ bits (encodeJ imm rd op) 19 12 = bits imm 19 12 := by
    simp (disch := omega) only [bits_eq_extractLsb', encodeJ, BitVec.extractLsb'_append_eq_of_le]
    exact ⟨BitVec.extractLsb'_eq_self, BitVec.extractLsb'_append_eq_right, BitVec.extractLsb'_append_eq_right,
      BitVec.extractLsb'_append_eq_right⟩
  have hzero : 0#1 = bits imm 0 0 := by
    refine Laws.bits_ext fun k hk => ?_
    obtain rfl : k = 0 := by omega
    simpa [bits_eq_extractLsb'] using heven
  have hlow : bits imm 20 20 ++ bits imm 19 12 ++ bits imm 11 11 ++ bits imm 10 1 ++ 0#1 = imm.setWidth 21 := by
    rw [hzero]
    simp only [bits_eq_extractLsb']
    iterate 4 rw [BitVec.extractLsb'_append_extractLsb'_eq_extractLsb' (by rfl)]
    exact (BitVec.setWidth_eq_extractLsb' (by decide)).symm
  obtain ⟨h1, h2, h3, h4⟩ := hfields
  rw [immJ, h1, h2, h3, h4, hlow]
  exact eq_of_beq hsign

end

/-! ## The immediates of a word are values of their formats -/

/-- Truncation to the width a value was sign-extended from gives the value back. -/
theorem setWidth_signExtend {v n : Nat} (x : BitVec v) (h : v ≤ n) : (x.signExtend n).setWidth v = x := by
  refine Laws.bits_ext fun k hk => ?_
  rw [BitVec.getLsbD_setWidth, BitVec.getLsbD_signExtend, if_pos hk]
  simp [hk, show k < n by omega]

theorem fitsI_signExtend (x : BitVec 12) : fitsI (x.signExtend 32) = true := by
  rw [fitsI, setWidth_signExtend x (by decide)]
  exact beq_self_eq_true _

theorem fitsI_immI (w : Word) : fitsI (immI w) = true := fitsI_signExtend _

theorem fitsU_immU (w : Word) : fitsU (immU w) = true := by
  rw [fitsU, BitVec.setWidth_eq_extractLsb' (by decide), immU_eq_append]
  exact beq_of_eq BitVec.extractLsb'_append_eq_right

theorem fitsJ_immJ (w : Word) : fitsJ (immJ w) = true := by
  refine Bool.and_eq_true_iff.mpr ⟨?_, by rw [getLsbD_immJ w (by decide)]; rfl⟩
  rw [immJ, setWidth_signExtend _ (by decide)]
  exact beq_self_eq_true _

/-! ## The rows of the opcode map (R50) -/

/-- The instruction of the same kind with the operands at their bit positions in a word (R39, R45 to R47). -/
def Instr.ofWord (w : Word) : Instr → Instr
  | .lui _ _ => .lui (w.extractLsb' 7 5) (immU w)
  | .auipc _ _ => .auipc (w.extractLsb' 7 5) (immU w)
  | .jal _ _ => .jal (w.extractLsb' 7 5) (immJ w)
  | .jalr _ _ _ _ => .jalr (w.extractLsb' 7 5) (w.extractLsb' 15 5) (w.extractLsb' 12 3) (immI w)
  | .addi _ _ _ => .addi (w.extractLsb' 7 5) (w.extractLsb' 15 5) (immI w)
  | .add _ _ _ => .add (w.extractLsb' 7 5) (w.extractLsb' 15 5) (w.extractLsb' 20 5)
  | .sub _ _ _ => .sub (w.extractLsb' 7 5) (w.extractLsb' 15 5) (w.extractLsb' 20 5)

/-- The opcode of an arm decides the format of the immediate (R42). -/
theorem withOperands_decodeFields {w : Word} {i : Instr} (h : i.SelectedBy (decodeFields w)) :
    i.withOperands (decodeFields w) = i.ofWord w := by
  cases i with
  | lui => exact congrArg (Instr.lui _) (decodeFields_imm_of_uType (.inl h))
  | auipc => exact congrArg (Instr.auipc _) (decodeFields_imm_of_uType (.inr h))
  | jal => exact congrArg (Instr.jal _) (decodeFields_imm_of_jal h)
  | jalr => exact congrArg (Instr.jalr _ _ _) (decodeFields_imm_of_iType (.inr h))
  | addi => exact congrArg (Instr.addi _ _) (decodeFields_imm_of_iType (.inl h.1))
  | add | sub => rfl

/-- A word of an arm is the encoding of the instruction it holds: no bit of it is dropped. -/
theorem encode_ofWord {w : Word} {i : Instr} (h : i.SelectedBy (decodeFields w)) : encode (i.ofWord w) = w := by
  cases i with
  | lui | auipc =>
    have hword := encodeU_slices w
    rwa [show bits w 6 0 = _ from h] at hword
  | jal =>
    have hword := encodeJ_slices w
    rwa [show bits w 6 0 = _ from h] at hword
  | jalr =>
    have hword := encodeI_slices w
    rwa [show bits w 6 0 = _ from h] at hword
  | addi =>
    have hword := encodeI_slices w
    obtain ⟨hop, hf3⟩ := h
    rwa [show bits w 6 0 = _ from hop, show bits w 14 12 = _ from hf3] at hword
  | add | sub =>
    have hword := encodeR_slices w
    obtain ⟨hop, hf3, hf7⟩ := h
    rwa [show bits w 6 0 = _ from hop, show bits w 14 12 = _ from hf3, show bits w 31 25 = _ from hf7] at hword

theorem ofWord_wellFormed (w : Word) (i : Instr) : (i.ofWord w).wellFormed = true := by
  cases i with
  | lui | auipc => exact fitsU_immU w
  | jal => exact fitsJ_immJ w
  | jalr | addi => exact fitsI_immI w
  | add | sub => rfl

theorem encode_row (i : Instr) : encode i &&& rowMask i = rowMatch i := by
  cases i with
  | lui rd imm => exact Laws.EncodingRow.lui rd imm
  | auipc rd imm => exact Laws.EncodingRow.auipc rd imm
  | jal rd imm => exact Laws.EncodingRow.jal rd imm
  | jalr rd rs1 funct3 imm => exact Laws.EncodingRow.jalr rd rs1 funct3 imm
  | addi rd rs1 imm => exact Laws.EncodingRow.addi rd rs1 imm
  | add rd rs1 rs2 => exact Laws.EncodingRow.add rd rs1 rs2
  | sub rd rs1 rs2 => exact Laws.EncodingRow.sub rd rs1 rs2

/-- The row depends on the kind of the instruction only. -/
theorem row_ofWord (w : Word) (i : Instr) :
    rowMask (i.ofWord w) = rowMask i ∧ rowMatch (i.ofWord w) = rowMatch i := by
  cases i <;> exact ⟨rfl, rfl⟩

theorem selectedBy_of_row {w : Word} {i : Instr} (h : w &&& rowMask i = rowMatch i) :
    i.SelectedBy (decodeFields w) := by
  cases i <;> simp only [rowMask, rowMatch] at h
  case lui | auipc | jal | jalr => exact extractLsb'_of_and_eq h 0 7 (by decide)
  case addi => exact ⟨extractLsb'_of_and_eq h 0 7 (by decide), extractLsb'_of_and_eq h 12 3 (by decide)⟩
  case add | sub =>
    exact ⟨extractLsb'_of_and_eq h 0 7 (by decide), extractLsb'_of_and_eq h 12 3 (by decide),
      extractLsb'_of_and_eq h 25 7 (by decide)⟩

/-- A word of an arm lies in the row of its instruction, since the encoding of that instruction does. -/
theorem selectedBy_iff_row {w : Word} {i : Instr} :
    i.SelectedBy (decodeFields w) ↔ w &&& rowMask i = rowMatch i := by
  refine ⟨fun h => ?_, selectedBy_of_row⟩
  obtain ⟨hmask, hmatch⟩ := row_ofWord w i
  rw [← hmask, ← hmatch, ← encode_row, encode_ofWord h]

theorem decode_eq_instr_iff_row {w : Word} {i : Instr} :
    decode w = .instr i ↔ w &&& rowMask i = rowMatch i ∧ i = i.ofWord w := by
  rw [decode_eq_instr, select_eq_some, ← selectedBy_iff_row]
  exact and_congr_right fun h => by rw [withOperands_decodeFields h]

theorem decode_of_row {w : Word} {i : Instr} (h : w &&& rowMask i = rowMatch i) : decode w = .instr (i.ofWord w) := by
  rw [decode_eq_instr, ← withOperands_decodeFields (selectedBy_of_row h)]
  exact select_of_selectedBy (selectedBy_of_row h)

/-- Settles O9: a word that decodes to an instruction holds its opcode and operands and nothing else. -/
theorem encodeOfDecode : Obligations.EncodeOfDecode := by
  intro w i hi
  obtain ⟨hrow, hops⟩ := decode_eq_instr_iff_row.mp hi
  rw [hops]
  exact ⟨encode_ofWord (selectedBy_of_row hrow), ofWord_wellFormed w i⟩

/-- The operands of a well-formed instruction stand at their bit positions in its encoding. -/
theorem ofWord_encode {i : Instr} (h : i.wellFormed = true) : i.ofWord (encode i) = i := by
  cases i with
  | lui rd imm => exact congrArg₂ Instr.lui (Laws.DestinationField.lui rd imm) (immU_encodeU imm rd opLui h)
  | auipc rd imm => exact congrArg₂ Instr.auipc (Laws.DestinationField.auipc rd imm) (immU_encodeU imm rd opAuipc h)
  | jal rd imm => exact congrArg₂ Instr.jal (Laws.DestinationField.jal rd imm) (immJ_encodeJ imm rd opJal h)
  | jalr rd rs1 funct3 imm =>
    exact Instr.jalr.injEq .. ▸ ⟨Laws.DestinationField.jalr rd rs1 funct3 imm, rs1_encodeI imm rd rs1 funct3 opJalr,
      funct3_encodeI imm rd rs1 funct3 opJalr, immI_encodeI imm rd rs1 funct3 opJalr h⟩
  | addi rd rs1 imm =>
    exact Instr.addi.injEq .. ▸ ⟨Laws.DestinationField.addi rd rs1 imm, rs1_encodeI imm rd rs1 f3AddSub opAluImm,
      immI_encodeI imm rd rs1 f3AddSub opAluImm h⟩
  | add rd rs1 rs2 =>
    exact Instr.add.injEq .. ▸ ⟨Laws.DestinationField.add rd rs1 rs2,
      rs1_encodeR rd rs1 rs2 f3AddSub f7Add opAluReg, rs2_encodeR rd rs1 rs2 f3AddSub f7Add opAluReg⟩
  | sub rd rs1 rs2 =>
    exact Instr.sub.injEq .. ▸ ⟨Laws.DestinationField.sub rd rs1 rs2,
      rs1_encodeR rd rs1 rs2 f3AddSub f7Sub opAluReg, rs2_encodeR rd rs1 rs2 f3AddSub f7Sub opAluReg⟩

/-- Settles O8: the encoding lies in its own row and holds the operands. -/
theorem decodeOfEncode : Obligations.DecodeOfEncode := fun i hwf =>
  decode_eq_instr_iff_row.mpr ⟨encode_row i, (ofWord_encode hwf).symm⟩

theorem row_iff_decode_eq_ofWord {w : Word} {i : Instr} :
    w &&& rowMask i = rowMatch i ↔ decode w = .instr (i.ofWord w) := by
  refine ⟨decode_of_row, fun h => ?_⟩
  obtain ⟨hrow, -⟩ := decode_eq_instr_iff_row.mp h
  obtain ⟨hmask, hmatch⟩ := row_ofWord w i
  rwa [hmask, hmatch] at hrow

theorem decode_unrecognised_iff_no_row {w : Word} :
    (∃ c, decode w = .unrecognised c) ↔ ∀ i : Instr, w &&& rowMask i ≠ rowMatch i := by
  constructor
  · rintro ⟨c, hc⟩ i hrow
    rw [decode_of_row hrow] at hc
    nomatch hc
  · intro hno
    cases hd : decode w with
    | unrecognised c => exact ⟨c, rfl⟩
    | instr i => exact absurd (decode_eq_instr_iff_row.mp hd).1 (hno i)

/-- Settles O6: each row, with any operands in place of the ones it does not look at, and the words of no row. -/
theorem selectionByMaskAndMatch : Obligations.SelectionByMaskAndMatch := fun _ =>
  ⟨row_iff_decode_eq_ofWord (i := .lui 0#5 0#32), row_iff_decode_eq_ofWord (i := .auipc 0#5 0#32),
    row_iff_decode_eq_ofWord (i := .jal 0#5 0#32), row_iff_decode_eq_ofWord (i := .jalr 0#5 0#5 0#3 0#32),
    row_iff_decode_eq_ofWord (i := .addi 0#5 0#5 0#32), row_iff_decode_eq_ofWord (i := .add 0#5 0#5 0#5),
    row_iff_decode_eq_ofWord (i := .sub 0#5 0#5 0#5), decode_unrecognised_iff_no_row⟩

end Sys2Proof

/-! PROOF. The words that are no instruction, by the name of their class (44_unrecognised R80 to R85), words of the
spec, and what a word's bits that are not looked at leave alone (30_encoding R50). -/

namespace Sys2Proof

open Sys2Proof.Machine

/-! ## The class of an unrecognised word -/

/-- The class that an opcode gives a word, unless the word is all zeros or all ones (R80 to R83, R85). -/
def classOfOpcode (op : BitVec 7) : Unrecognised :=
  if op = opAluImm then .aluImm
  else if op = opAluReg then .aluReg
  else if op = 0x03#7 then .load
  else if op = 0x23#7 then .store
  else if op = 0x63#7 then .branch
  else if op = 0x0F#7 then .miscMem
  else if op = 0x73#7 then .system
  else .otherOpcode

theorem unrecognisedClass_of_ne {w : Word} (hzero : w ≠ 0x00000000#32) (hones : w ≠ 0xFFFFFFFF#32) :
    unrecognisedClass w = classOfOpcode (w.extractLsb' 0 7) := (if_neg hzero).trans (if_neg hones)

/-- The two words of R84 have the opcodes 0x00 and 0x7F, so a word of another opcode is in the class of its opcode. -/
theorem unrecognisedClass_of_opcode {w : Word} {op : BitVec 7} (hop : w.extractLsb' 0 7 = op)
    (hzero : op ≠ 0x00#7) (hones : op ≠ 0x7F#7) : unrecognisedClass w = classOfOpcode op := by
  subst hop
  refine unrecognisedClass_of_ne ?_ ?_
  · rintro rfl
    exact hzero (by decide)
  · rintro rfl
    exact hones (by decide)

theorem decode_of_other_opcode {w : Word}
    (h : w.extractLsb' 0 7 ∉ [opAluImm, opJalr, opAuipc, opLui, opJal]) (hreg : w.extractLsb' 0 7 ≠ opAluReg) :
    decode w = .unrecognised (unrecognisedClass w) := by
  refine decode_of_select_none ((select_of_other (d := decodeFields w) h).trans ?_)
  rw [if_neg fun ⟨hop, _⟩ => hreg hop, if_neg fun ⟨hop, _⟩ => hreg hop]

theorem decode_of_noop_opcode {w : Word} {op : BitVec 7} (hop : w.extractLsb' 0 7 = op)
    (himm : op ∉ [opAluImm, opJalr, opAuipc, opLui, opJal]) (hother : op ∉ [opAluReg, 0x00#7, 0x7F#7]) :
    decode w = .unrecognised (classOfOpcode op) := by
  obtain ⟨hreg, hzero, hones⟩ : op ≠ opAluReg ∧ op ≠ 0x00#7 ∧ op ≠ 0x7F#7 := by simpa using hother
  rw [← unrecognisedClass_of_opcode hop hzero hones]
  subst hop
  exact decode_of_other_opcode himm hreg

theorem decode_of_aluReg_other_functs {w : Word} (hop : w.extractLsb' 0 7 = opAluReg)
    (h : w.extractLsb' 12 3 ≠ f3AddSub ∨ w.extractLsb' 25 7 ∉ [f7Add, f7Sub]) :
    decode w = .unrecognised (unrecognisedClass w) := by
  refine decode_of_select_none
    ((select_of_other (d := decodeFields w) (not_mem_immOpcodes_of_aluReg hop)).trans ?_)
  have notFuncts : ∀ f7 ∈ [f7Add, f7Sub], ¬ (w.extractLsb' 12 3 = f3AddSub ∧ w.extractLsb' 25 7 = f7) := by
    rintro f7 hmem ⟨hf3, rfl⟩
    exact h.elim (· hf3) (· hmem)
  rw [if_neg fun ⟨_, hf⟩ => notFuncts f7Add (by simp) hf, if_neg fun ⟨_, hf⟩ => notFuncts f7Sub (by simp) hf]

/-- Settles O26: the dispatch has no arm for the words of each class, and the opcode gives the class its name. -/
theorem noopClassesByEncoding : Obligations.NoopClassesByEncoding := by
  refine ⟨?aluImm, ?aluReg, fun w hop => decode_of_noop_opcode hop (by decide) (by decide),
    fun w hop => decode_of_noop_opcode hop (by decide) (by decide),
    fun w hop => decode_of_noop_opcode hop (by decide) (by decide),
    fun w hop => decode_of_noop_opcode hop (by decide) (by decide),
    fun w hop => decode_of_noop_opcode hop (by decide) (by decide), by decide, by decide, ?otherOpcode⟩
  case aluImm =>
    intro w hop hf3
    rw [decode_of_aluImm_other_funct3 hop hf3, unrecognisedClass_of_opcode hop (by decide) (by decide)]
    rfl
  case aluReg =>
    intro w hop hfuncts
    rw [decode_of_aluReg_other_functs hop hfuncts, unrecognisedClass_of_opcode hop (by decide) (by decide)]
    rfl
  case otherOpcode =>
    intro w hzero hones hop
    have himm : w.extractLsb' 0 7 ∉ [opAluImm, opJalr, opAuipc, opLui, opJal] := by
      simp_all [opAluImm, opJalr, opAuipc, opLui, opJal]
    have hreg : w.extractLsb' 0 7 ≠ opAluReg := by simp_all [opAluReg]
    have hclass : classOfOpcode (w.extractLsb' 0 7) = .otherOpcode := by
      simp_all [classOfOpcode, opAluImm, opAluReg]
    rw [decode_of_other_opcode himm hreg, unrecognisedClass_of_ne hzero hones, hclass]

/-- Settles O10: the decoder run on the eight words. -/
theorem specWordsDecode : Obligations.SpecWordsDecode := by
  refine ⟨?_, ?_, ?_, ?_, ?_, ?_, ?_, ?_⟩ <;> decide

/-! ## JALR and `funct3` -/

/-- Where a mask covers a slice, two words that agree under the mask agree in the slice. -/
theorem extractLsb'_eq_of_and_eq {v w mask : Word} (h : v &&& mask = w &&& mask) (start len : Nat)
    (hmask : mask.extractLsb' start len = BitVec.allOnes len) : v.extractLsb' start len = w.extractLsb' start len := by
  rw [extractLsb'_of_and_eq h start len hmask, BitVec.extractLsb'_and, hmask, BitVec.and_allOnes]

theorem exec_jalr_funct3 (rd rs1 : RegIdx) (f g : BitVec 3) (imm : Word) (s : State) :
    exec (.jalr rd rs1 f imm) s = exec (.jalr rd rs1 g imm) s := rfl

/-- Settles O31: the meaning does not look at `funct3`, and the other operands lie outside bits 14 to 12. -/
theorem jalrIgnoresFunct3 : Obligations.JalrIgnoresFunct3 := by
  refine ⟨fun rd rs1 f g imm s => ⟨_, exec_eq (.jalr rd rs1 f imm) s, ?sameMeaning⟩,
    fun v w i hagree hv hi => ?words⟩
  case sameMeaning => exact (exec_jalr_funct3 rd rs1 g f imm s).trans (exec_eq _ s)
  case words =>
    have hw : w &&& 0x7F#32 = 0x67#32 := by
      have hsub : 0xFFFF8FFF#32 &&& 0x7F#32 = 0x7F#32 := by decide
      rw [← hv, ← hsub, ← BitVec.and_assoc, ← BitVec.and_assoc, hagree]
    have hdv := decode_of_row (i := .jalr 0#5 0#5 0#3 0#32) hv
    have hdw := decode_of_row (i := .jalr 0#5 0#5 0#3 0#32) hw
    obtain rfl := Selected.instr.inj (hi.symm.trans hdv)
    refine ⟨_, hdw, fun s => ?_⟩
    have hrd := extractLsb'_eq_of_and_eq hagree 7 5 (by decide)
    have hrs1 := extractLsb'_eq_of_and_eq hagree 15 5 (by decide)
    have himm : immI v = immI w :=
      congrArg (BitVec.signExtend 32) (extractLsb'_eq_of_and_eq hagree 20 12 (by decide))
    simp only [Instr.ofWord, hrd, hrs1, himm]
    exact exec_jalr_funct3 _ _ _ _ _ s

end Sys2Proof

/-! PROOF. The single step: the run condition and the label (40_fetch R57, R68), completion and the pc of every step
(10_state R15), LUI, AUIPC, JAL, JALR and the no-op (R69 to R73, R79), register 0 and the sources (10_state R11, R12),
and the arithmetic laws (43_alu R74). -/

namespace Sys2Proof.Machine

/-! ## The run condition and the label -/

theorem State.stopped_iff {s : State} : s.stopped = true ↔ s.enabled = false := by
  simp [State.stopped]

theorem stepLabel_of_memRead {s : State} {w : Word} (h : s.memRead s.pc.toNat = some w) :
    stepLabel s = some (decode w).label := by
  rw [stepLabel, State.fetch_of_memRead h]

theorem stepLabel_of_stopped {s : State} (h : s.enabled = false) : stepLabel s = none := by
  rw [stepLabel, State.fetch_of_stopped h]

theorem State.enabled_eq_of_pc {s t : State} (hpc : s.pc = t.pc) (hwords : s.config.memWords = t.config.memWords) :
    s.enabled = t.enabled := by
  rw [State.enabled, State.enabled, hpc, hwords]

theorem State.exists_word_of_enabled {s : State} (h : s.enabled = true) : ∃ w, s.memRead s.pc.toNat = some w :=
  (State.stopped_or_word s).resolve_left (by simp [h])

theorem State.enabled_of_memRead {s : State} {w : Word} (h : s.memRead s.pc.toNat = some w) : s.enabled = true :=
  State.enabled_iff.mpr (State.memRead_eq_some.mp h).1

/-- Settles O11: the comparison of R57, and what a fetch or its absence makes of the step and its label. -/
theorem runConditionIsPcBelowMemWords : Obligations.RunConditionIsPcBelowMemWords := by
  refine ⟨fun s => ⟨State.enabled_iff, by simp [State.stopped]⟩, fun s hnone => ?noMemory,
    fun s t => State.enabled_eq_of_pc, fun s he => ?enabled, fun s hstop => ?stopped⟩
  case noMemory =>
    rw [Bool.eq_false_iff, ne_eq, State.enabled_iff]
    omega
  case enabled =>
    obtain ⟨w, hw⟩ := State.exists_word_of_enabled he
    exact ⟨w, hw, step_of_memRead hw, stepLabel_of_memRead hw⟩
  case stopped =>
    have he := State.stopped_iff.mp hstop
    refine ⟨State.fetch_of_stopped he, stepLabel_of_stopped he, fun t ht => ?_⟩
    rw [step_of_stopped he] at ht
    cases ht
    rfl

/-- Settles O17: the label of the word at the pc, by what the word decodes to. -/
theorem labelNamesTheArm : Obligations.LabelNamesTheArm := by
  intro s w hw
  rw [stepLabel_of_memRead hw]
  refine ⟨?noop, fun i hi => ?arm⟩
  case noop =>
    rw [Option.some_inj]
    cases decode w with
    | unrecognised c => exact ⟨fun _ => ⟨c, rfl⟩, fun _ => rfl⟩
    | instr i => cases i <;> exact ⟨nofun, nofun⟩
  case arm =>
    rw [hi]
    cases i <;> rfl

/-! ## Completion, and the pc of a step -/

theorem step_completes (s : State) : ∃ t, step s = .next t := by
  rcases step_cases s with ⟨-, hs⟩ | ⟨w, -, hs⟩
  · exact ⟨s, hs⟩
  · rcases execute_cases (decode w) (s.setPc (s.pc + 1#32)) with ⟨c, -, he⟩ | ⟨i, -, he⟩ <;>
      exact ⟨_, hs.trans he⟩

theorem step_pc_of_jal {s t : State} {w : Word} {rd : RegIdx} {imm : Word} (h : s.memRead s.pc.toNat = some w)
    (hd : decode w = .instr (.jal rd imm)) (hstep : step s = .next t) : t.pc = s.pc + 1#32 + imm := by
  rw [step_of_instr h hd, exec_eq] at hstep
  cases hstep
  rfl

/-- The base is read in the state after the link is written (D7), and the pc write leaves the registers. -/
theorem step_pc_of_jalr {s t : State} {w : Word} {rd rs1 : RegIdx} {funct3 : BitVec 3} {imm : Word}
    (h : s.memRead s.pc.toNat = some w) (hd : decode w = .instr (.jalr rd rs1 funct3 imm))
    (hstep : step s = .next t) : t.pc = (t.readReg rs1 + imm) &&& 0xFFFFFFFE#32 := by
  rw [step_of_instr h hd, exec_eq] at hstep
  cases hstep
  rfl

/-- Settles O15: a step by the three sources of the pc. -/
theorem everyStepCompletesAtAKnownPc : Obligations.EveryStepCompletesAtAKnownPc := by
  intro s
  obtain ⟨t, ht⟩ := step_completes s
  refine ⟨t, ht, fun hstop => ?stopped, fun w hw => ⟨step_pc_of_not_jump hw ht,
    fun rd imm hd => step_pc_of_jal hw hd ht, fun rd rs1 funct3 imm hd => step_pc_of_jalr hw hd ht⟩⟩
  rw [step_of_stopped (State.stopped_iff.mp hstop)] at ht
  cases ht
  rfl

/-! ## LUI, AUIPC, JAL, JALR and the no-op -/

/-- Settles O18: `exec` and the step of the LUI row are one register write. -/
theorem luiLoadsImmediate : Obligations.LuiLoadsImmediate :=
  ⟨fun rd imm s => exec_onlyWrites (.lui rd imm) s,
    fun _ _ hw hrow => step_onlyWrites hw (decode_of_row (i := .lui 0#5 0#32) hrow)⟩

/-- Settles O19: `exec` and the step of the AUIPC row are one register write. -/
theorem auipcAddsToNextIndex : Obligations.AuipcAddsToNextIndex :=
  ⟨fun rd imm s => exec_onlyWrites (.auipc rd imm) s,
    fun _ _ hw hrow => step_onlyWrites hw (decode_of_row (i := .auipc 0#5 0#32) hrow)⟩

/-- Settles O20: `exec` and the step of the JAL row are one register write and one pc, and so is the example. -/
theorem jalLinksAndJumps : Obligations.JalLinksAndJumps := by
  refine ⟨fun rd imm s => exec_onlyWrites (.jal rd imm) s,
    fun _ _ hw hrow => step_onlyWrites hw (decode_of_row (i := .jal 0#5 0#32) hrow), fun s hpc hw => ?documentExample⟩
  case documentExample =>
    have hdecode : decode 0x008000EF#32 = .instr (.jal 1#5 8#32) := by decide
    have hword : s.memRead s.pc.toNat = some 0x008000EF#32 := by rw [hpc]; exact hw
    obtain ⟨t, ht, hwrites⟩ := step_onlyWrites hword hdecode
    refine ⟨t, ht, ?_, ?_⟩
    · calc t.readReg 1#5
          = s.pc + 1#32 := hwrites.readReg_of_ne_zero (by decide)
        _ = 5#32 := by rw [hpc]; rfl
    · calc t.pc
          = s.pc + 1#32 + 8#32 := hwrites.pc
        _ = 13#32 := by rw [hpc]; rfl

/-- What any register reads after a write to any register. -/
theorem State.readReg_writeReg (s : State) (i j : RegIdx) (v : Word) :
    (s.writeReg i v).readReg j = if i = j then (if s.hardwired i then 0#32 else v) else s.readReg j := by
  split
  · next h => subst h; exact State.readReg_writeReg_same s i v
  · next h => exact State.readReg_writeReg_other s v (Ne.symm h)

theorem pcAfter_jalr (s : State) (rd rs1 : RegIdx) (funct3 : BitVec 3) (imm : Word) :
    pcAfter s (.jalr rd rs1 funct3 imm) =
      ((if rd = rs1 then (if s.hardwired rd then 0#32 else s.pc) else s.readReg rs1) + imm) &&& 0xFFFFFFFE#32 := by
  rw [← State.readReg_writeReg]
  rfl

theorem exec_jalr_onlyWrites (rd rs1 : RegIdx) (funct3 : BitVec 3) (imm : Word) (s : State) :
    ∃ t, exec (.jalr rd rs1 funct3 imm) s = .next t ∧
      OnlyWrites s t rd s.pc
        (((if rd = rs1 then (if s.hardwired rd then 0#32 else s.pc) else s.readReg rs1) + imm) &&& 0xFFFFFFFE#32) := by
  rw [← pcAfter_jalr]
  exact exec_onlyWrites _ s

/-- Settles O21: `exec` is the link and the pc, with the base as it reads after the link; the step of the JALR row is
`exec` after the fetch's increment. -/
theorem jalrLinksThenJumps : Obligations.JalrLinksThenJumps := by
  refine ⟨exec_jalr_onlyWrites, fun s w hw hrow => ?_⟩
  obtain ⟨t, ht, hwrites⟩ := exec_jalr_onlyWrites (w.extractLsb' 7 5) (w.extractLsb' 15 5) (w.extractLsb' 12 3)
    (immI w) (s.setPc (s.pc + 1#32))
  exact ⟨t, (step_of_instr hw (decode_of_row (i := .jalr 0#5 0#5 0#3 0#32) hrow)).trans ht, hwrites.of_setPc⟩

/-- Settles O25: the listed encodings are the rows of the opcode map, and a word of no row only advances the pc. -/
theorem unrecognisedWordOnlyAdvancesPc : Obligations.UnrecognisedWordOnlyAdvancesPc := by
  refine ⟨fun s w hw hopcode haddi halu => ?noRow, fun s hpc hw => ?documentExample⟩
  case noRow =>
    have noRow : ∀ i : Instr, w &&& rowMask i ≠ rowMatch i := by
      intro i hrow
      cases i with
      | lui | auipc | jal | jalr => exact hopcode (by rw [show w &&& 0x7F#32 = _ from hrow]; simp [rowMatch])
      | addi => exact haddi hrow
      | add | sub => exact halu (by rw [show w &&& 0xFE00707F#32 = _ from hrow]; simp [rowMatch])
    obtain ⟨c, hc⟩ := decode_unrecognised_iff_no_row.mpr noRow
    refine ⟨step_of_unrecognised hw hc, ?_⟩
    rw [stepLabel_of_memRead hw, hc]
    rfl
  case documentExample =>
    have hdecode : decode 0#32 = .unrecognised .zeroWord := by decide
    have hword : s.memRead s.pc.toNat = some 0#32 := by rw [hpc]; exact hw
    rw [step_of_unrecognised hword hdecode, hpc]
    rfl

/-! ## Register 0 and the sources -/

theorem State.writeReg_of_hardwired {s : State} {i : RegIdx} (h : s.hardwired i = true) (v : Word) :
    s.writeReg i v = s := if_pos h

theorem State.readReg_writeReg_of_not_hardwired {s : State} {i : RegIdx} (h : s.hardwired i = false) (v : Word) :
    (s.writeReg i v).readReg i = v ∧ ∀ j, j ≠ i → (s.writeReg i v).readReg j = s.readReg j := by
  refine ⟨?_, fun j hj => State.readReg_writeReg_other s v hj⟩
  rw [State.readReg_writeReg_same, h]
  rfl

/-- Settles O28: a register is ordinary unless it is register 0 with the switch set. -/
theorem registerZeroSwitch : Obligations.RegisterZeroSwitch := by
  refine ⟨fun s i v hoff => State.readReg_writeReg_of_not_hardwired (State.hardwired_of_switch_off hoff i) v,
    fun s hon => ?_⟩
  have hzero : s.hardwired 0#5 = true := by simp [State.hardwired, hon]
  exact ⟨State.readReg_of_hardwired hzero, State.writeReg_of_hardwired hzero,
    fun i v hi => State.readReg_writeReg_of_not_hardwired (s.hardwired_of_ne_zero hi) v⟩

/-- The same state in a core constructed with the other parameter `X0_HARDWIRED` (D4). -/
def State.withSwitch (b : Bool) (s : State) : State := { s with config := { s.config with x0Hardwired := b } }

@[simp] theorem State.withSwitch_pc (b : Bool) (s : State) : (s.withSwitch b).pc = s.pc := rfl

theorem State.readReg_withSwitch (b : Bool) (s : State) {i : RegIdx} (h : i ≠ 0#5) :
    (s.withSwitch b).readReg i = s.readReg i := by
  rw [State.readReg, State.readReg, State.hardwired_of_ne_zero _ h, State.hardwired_of_ne_zero _ h]
  rfl

theorem State.writeReg_withSwitch (b : Bool) (s : State) {i : RegIdx} (h : i ≠ 0#5) (v : Word) :
    (s.withSwitch b).writeReg i v = (s.writeReg i v).withSwitch b := by
  rw [State.writeReg, State.writeReg, State.hardwired_of_ne_zero _ h, State.hardwired_of_ne_zero _ h]
  rfl

theorem writeBackValue_congr {s t : State} {i : Instr} (hpc : s.pc = t.pc)
    (hsources : ∀ r ∈ sources i, s.readReg r = t.readReg r) : writeBackValue s i = writeBackValue t i := by
  cases i <;> simp_all [writeBackValue, sources]

/-- The pc depends on the sources too, through the base of JALR, which may be the link just written. -/
theorem pcAfter_congr {s t : State} {i : Instr} (hpc : s.pc = t.pc) (hrd : s.hardwired i.rd = t.hardwired i.rd)
    (hsources : ∀ r ∈ sources i, s.readReg r = t.readReg r) : pcAfter s i = pcAfter t i := by
  cases i with
  | jal rd imm => exact congrArg (· + imm) hpc
  | jalr rd rs1 funct3 imm =>
    have hbase : s.readReg rs1 = t.readReg rs1 := hsources rs1 (by simp [sources])
    rw [pcAfter_jalr, pcAfter_jalr, hpc, hbase, show s.hardwired rd = t.hardwired rd from hrd]
  | lui | auipc | addi | add | sub => exact hpc

/-- Settles O29: neither the value nor the pc nor the write sees the switch. -/
theorem switchOnlyConcernsRegisterZero : Obligations.SwitchOnlyConcernsRegisterZero := by
  intro i s b hrd hzero
  have hsources : ∀ r ∈ sources i, (s.withSwitch b).readReg r = s.readReg r := fun r hr =>
    State.readReg_withSwitch b s (by rintro rfl; exact hzero hr)
  have hhard : (s.withSwitch b).hardwired i.rd = s.hardwired i.rd := by
    rw [State.hardwired_of_ne_zero _ hrd, State.hardwired_of_ne_zero _ hrd]
  refine ⟨_, exec_eq i s, (exec_eq i (s.withSwitch b)).trans ?_⟩
  rw [writeBackValue_congr (s.withSwitch_pc b) hsources, pcAfter_congr (s.withSwitch_pc b) hhard hsources,
    State.writeReg_withSwitch b s hrd]
  rfl

/-- Settles O30: the value written and the pc are functions of the pc, the parameters and the sources. -/
theorem onlySourcesAreRead : Obligations.OnlySourcesAreRead := by
  intro i s t hpc hconfig hsources
  have hhard : s.hardwired i.rd = t.hardwired i.rd := by rw [State.hardwired, State.hardwired, hconfig]
  obtain ⟨s', hs', hsw⟩ := exec_onlyWrites i s
  obtain ⟨t', ht', htw⟩ := exec_onlyWrites i t
  refine ⟨s', t', hs', ht', ?_, ?_⟩
  · rw [hsw.written, htw.written, hhard, writeBackValue_congr hpc hsources]
  · rw [hsw.pc, htw.pc, pcAfter_congr hpc hhard hsources]

/-! ## The arithmetic laws -/

/-- Settles O27: the laws of `BitVec` for the unsigned and the signed value. -/
theorem arithmeticWrapsModulo : Obligations.ArithmeticWrapsModulo := by
  intro a b
  refine ⟨BitVec.toNat_add a b, ?sub, ?complement, ?signedAdd, ?signedSub⟩
  case sub =>
    have hb := b.isLt
    rw [aluSub, BitVec.toNat_sub]
    omega
  case complement => rw [aluSub, aluAdd, aluAdd, BitVec.sub_eq_add_neg, BitVec.neg_eq_not_add, BitVec.add_assoc]
  case signedAdd => rw [aluAdd, BitVec.toInt_add]; exact Int.bmod_emod
  case signedSub => rw [aluSub, BitVec.toInt_sub]; exact Int.bmod_emod

/-! ## What a jump reaches -/

/-- Clearing bit 0 rounds down to an even number. -/
theorem toNat_and_evenMask (x : Word) : (x &&& 0xFFFFFFFE#32).toNat = 2 * (x.toNat / 2) := by
  have hshift : x &&& 0xFFFFFFFE#32 = (x >>> 1) <<< 1 := by
    refine Laws.bits_ext fun k hk => ?_
    interval_cases k <;> simp
  have hx := x.isLt
  rw [hshift, BitVec.toNat_shiftLeft, BitVec.toNat_ushiftRight, Nat.shiftRight_eq_div_pow, Nat.shiftLeft_eq]
  omega

/-- Settles O32: the target is an even number next to the base plus the immediate. -/
theorem jalrReachesOnlyEvenIndices : Obligations.JalrReachesOnlyEvenIndices := by
  intro rd rs1 funct3 imm s
  obtain ⟨t, ht, hwrites⟩ := exec_jalr_onlyWrites rd rs1 funct3 imm s
  have heven : t.pc.toNat % 2 = 0 := by
    rw [hwrites.pc, toNat_and_evenMask]
    exact Nat.mul_mod_right 2 _
  have htarget : rd ≠ rs1 → imm = 0#32 → t.pc.toNat = 2 * ((s.readReg rs1).toNat / 2) := by
    rintro hne rfl
    rw [hwrites.pc, if_neg hne, BitVec.add_zero, toNat_and_evenMask]
  refine ⟨t, ht, ?bit0, fun hne himm hbase => ?even, fun hne himm hbase => ?odd, fun hbase => ?notOdd⟩
  case bit0 =>
    rw [BitVec.getLsbD, Nat.testBit_zero, heven]
    rfl
  case even =>
    have hpc := htarget hne himm
    exact BitVec.eq_of_toNat_eq (by omega)
  case odd =>
    have hpc := htarget hne himm
    have hlt := (s.readReg rs1).isLt
    refine BitVec.eq_of_toNat_eq ?_
    rw [BitVec.toNat_sub, BitVec.toNat_ofNat]
    omega
  case notOdd =>
    intro h
    rw [h] at heven
    omega

/-- An even offset is not -1, so a JAL does not reach its own index (R71 (b)). -/
theorem jal_offset_ne {w : Word} {rd : RegIdx} {imm : Word} (hd : decode w = .instr (.jal rd imm)) :
    1#32 + imm ≠ 0#32 := by
  intro h
  obtain ⟨-, hwf⟩ := encodeOfDecode w _ hd
  obtain ⟨-, heven⟩ := Bool.and_eq_true_iff.mp hwf
  have himm : imm = -1#32 := eq_neg_of_add_eq_zero_right h
  rw [himm] at heven
  nomatch heven

theorem decode_jal_of_jump {w : Word} (hjump : isJump w = true) (hjalr : (decode w).label ≠ .jalr) :
    ∃ rd imm, decode w = .instr (.jal rd imm) := by
  rw [isJump] at hjump
  cases hd : decode w with
  | unrecognised c => rw [hd] at hjump; nomatch hjump
  | instr i =>
    rw [hd] at hjump hjalr
    cases i with
    | jal rd imm => exact ⟨rd, imm, rfl⟩
    | jalr => exact absurd rfl hjalr
    | lui | auipc | addi | add | sub => nomatch hjump

/-- Without a JALR a step moves the pc by 1 and an offset that the word alone decides, and that does not lead back. -/
theorem exists_step_offset {w : Word} (hjalr : (decode w).label ≠ .jalr) :
    ∃ offset : Word, 1#32 + offset ≠ 0#32 ∧
      ∀ s t : State, s.memRead s.pc.toNat = some w → step s = .next t → t.pc = s.pc + (1#32 + offset) := by
  cases hjump : isJump w with
  | false => exact ⟨0#32, by decide, fun _ _ hw ht => step_pc_of_not_jump hw ht hjump⟩
  | true =>
    obtain ⟨rd, imm, hd⟩ := decode_jal_of_jump hjump hjalr
    refine ⟨imm, jal_offset_ne hd, fun s t hw ht => ?_⟩
    rw [step_pc_of_jal hw hd ht, BitVec.add_assoc]

/-- Settles O33: the pc moves by 1, or by 1 and an even offset. -/
theorem onlyJalrCanRepeatItself : Obligations.OnlyJalrCanRepeatItself := by
  intro s w hw hjalr
  obtain ⟨t, ht⟩ := step_completes s
  obtain ⟨offset, hne, hpc⟩ := exists_step_offset hjalr
  exact ⟨t, ht, fun h => hne (by simpa [hpc s t hw ht] using h)⟩

end Sys2Proof.Machine

/-! PROOF. Any number of steps (40_fetch R57, R64 to R66): the stop, what steps never change, the path without a JALR,
the run without jumps, and the shortest loop. -/

namespace Sys2Proof.Machine

/-! ## The stop -/

theorem stepN_of_stopped (n : Nat) {s : State} (h : s.enabled = false) : stepN n s = .next s := by
  induction n with
  | zero => rfl
  | succ n ih => rw [stepN_succ n (step_of_stopped h), ih]

theorem run_of_stopped (n : Nat) {s : State} (h : s.stopped = true) : run n s = .next (.stopped s) := by
  cases n <;> rw [run, if_pos h]

/-- A run of no steps from a valid pc is unfinished. -/
theorem run_zero_of_enabled {s : State} (h : s.enabled = true) : run 0 s = .next (.outOfFuel s) := by
  simp [run, State.stopped, h]

/-- Settles O12: a step of a stopped core gives the same core, and a run looks for the stop first. -/
theorem stopIsFinal : Obligations.StopIsFinal := fun n _ hstop =>
  ⟨stepN_of_stopped n (State.stopped_iff.mp hstop), run_of_stopped n hstop⟩

/-! ## Memory and parameters -/

theorem State.memRead_congr {s t : State} (hmem : t.mem = s.mem) (hwords : t.config.memWords = s.config.memWords)
    (a : Nat) : t.memRead a = s.memRead a := by
  rw [State.memRead, State.memRead, hmem, hwords]

theorem step_memRead {s t : State} (h : step s = .next t) (a : Nat) : t.memRead a = s.memRead a := by
  obtain ⟨hmem, hconfig⟩ := step_mem_config h
  exact State.memRead_congr hmem (congrArg _ hconfig) a

theorem stepN_mem_config (n : Nat) (s : State) :
    ∃ t, stepN n s = .next t ∧ t.mem = s.mem ∧ t.config = s.config := by
  induction n generalizing s with
  | zero => exact ⟨s, rfl, rfl, rfl⟩
  | succ n ih =>
    obtain ⟨u, hu⟩ := step_completes s
    obtain ⟨hmem, hconfig⟩ := step_mem_config hu
    obtain ⟨t, ht, htmem, htconfig⟩ := ih u
    exact ⟨t, (stepN_succ n hu).trans ht, htmem.trans hmem, htconfig.trans hconfig⟩

/-- Settles O38: no step writes memory or a parameter, so no number of steps does. -/
theorem memoryConstantOverRuns : Obligations.MemoryConstantOverRuns := by
  intro n s
  obtain ⟨t, ht, hmem, hconfig⟩ := stepN_mem_config n s
  exact ⟨t, ht, hmem, hconfig, State.memRead_congr hmem (congrArg _ hconfig)⟩

/-! ## The path without a JALR -/

/-- Two cores at the same index of the same memory, whatever their registers and their switch. -/
structure SamePath (s t : State) : Prop where
  pc : s.pc = t.pc
  mem : s.mem = t.mem
  memWords : s.config.memWords = t.config.memWords

theorem SamePath.enabled {s t : State} (h : SamePath s t) : s.enabled = t.enabled :=
  State.enabled_eq_of_pc h.pc h.memWords

theorem SamePath.memRead {s t : State} (h : SamePath s t) (a : Nat) : s.memRead a = t.memRead a :=
  State.memRead_congr h.mem h.memWords a

/-- One step, at a word that is no JALR, leads both cores to the same index. -/
theorem SamePath.step {s t s' t' : State} (h : SamePath s t)
    (hjalr : ∀ a w, s.memRead a = some w → (decode w).label ≠ .jalr) (hs : Machine.step s = .next s')
    (ht : Machine.step t = .next t') : SamePath s' t' := by
  obtain ⟨hsmem, hsconfig⟩ := step_mem_config hs
  obtain ⟨htmem, htconfig⟩ := step_mem_config ht
  refine ⟨?pc, by rw [hsmem, htmem, h.mem], by rw [hsconfig, htconfig, h.memWords]⟩
  rcases State.stopped_or_word s with hstop | ⟨w, hw⟩
  · rw [step_of_stopped hstop] at hs
    rw [step_of_stopped (h.enabled ▸ hstop)] at ht
    cases hs
    cases ht
    exact h.pc
  · obtain ⟨offset, -, hpc⟩ := exists_step_offset (hjalr _ w hw)
    have hwt : t.memRead t.pc.toNat = some w := by rw [← h.memRead, ← h.pc]; exact hw
    rw [hpc s s' hw hs, hpc t t' hwt ht, h.pc]

/-- Settles O34: being on the same path is kept by every step, and so by every number of steps. -/
theorem pathIgnoresRegistersWithoutJalr : Obligations.PathIgnoresRegistersWithoutJalr := by
  intro n s t hpc hmem hwords hjalr
  have h : SamePath s t := ⟨hpc, hmem, hwords⟩
  clear hpc hmem hwords
  induction n generalizing s t with
  | zero => exact ⟨s, t, rfl, rfl, h.pc, h.enabled⟩
  | succ n ih =>
    obtain ⟨s1, hs⟩ := step_completes s
    obtain ⟨t1, ht⟩ := step_completes t
    have hjalr1 : ∀ a w, s1.memRead a = some w → (decode w).label ≠ .jalr := by
      intro a w hw
      exact hjalr a w (step_memRead hs a ▸ hw)
    rw [stepN_succ n hs, stepN_succ n ht]
    exact ih s1 t1 hjalr1 (h.step hjalr hs ht)

/-! ## The run without jumps -/

theorem isJump_of_unrecognised {w : Word} {c : Unrecognised} (h : decode w = .unrecognised c) : isJump w = false := by
  rw [isJump, h]
  rfl

/-- With no jump from the pc to the end of memory, a run moves the pc by one per step; and if all words there are
unrecognised, it leaves the registers as they are. -/
theorem run_sequential (n : Nat) {s : State} (hroom : s.pc.toNat + n ≤ s.config.memWords.val)
    (hjump : ∀ a w, s.pc.toNat ≤ a → s.memRead a = some w → isJump w = false) :
    ∃ t, run n s = run 0 t ∧ t.pc.toNat = s.pc.toNat + n ∧ t.config = s.config ∧
      ((∀ a w, s.pc.toNat ≤ a → s.memRead a = some w → ∃ c, decode w = .unrecognised c) →
        t.regs = s.regs) := by
  induction n generalizing s with
  | zero => exact ⟨s, rfl, rfl, rfl, fun _ => rfl⟩
  | succ n ih =>
    have he : s.enabled = true := State.enabled_iff.mpr (by omega)
    obtain ⟨w, hw⟩ := State.exists_word_of_enabled he
    obtain ⟨u, hu⟩ := step_completes s
    obtain ⟨-, hconfig⟩ := step_mem_config hu
    have hpc : u.pc.toNat = s.pc.toNat + 1 := by
      rw [step_pc_of_not_jump hw hu (hjump _ w (Nat.le_refl _) hw), State.pc_succ_toNat he]
    have hmemRead := step_memRead hu
    obtain ⟨t, ht, htpc, htconfig, htregs⟩ := ih (s := u) (by rw [hpc, hconfig]; omega)
      fun a v ha hv => hjump a v (by omega) (hmemRead a ▸ hv)
    refine ⟨t, (run_succ n he hu).trans ht, by omega, htconfig.trans hconfig, fun hnoop => ?_⟩
    obtain ⟨c, hc⟩ := hnoop _ w (Nat.le_refl _) hw
    rw [step_of_unrecognised hw hc] at hu
    cases hu
    exact htregs fun a v ha hv => hnoop a v (by omega) (hmemRead a ▸ hv)

/-- Settles O35: from index 0 the pc counts the steps, and the first index outside memory is the stop. -/
theorem jumpFreeRunTakesMemWordsSteps : Obligations.JumpFreeRunTakesMemWordsSteps := by
  intro s hzero hjump
  have hpc0 : s.pc.toNat = 0 := by rw [hzero]; rfl
  have hrun (n : Nat) (hn : n ≤ s.config.memWords.val) :
      ∃ t, run n s = run 0 t ∧ t.pc.toNat = n ∧ t.config = s.config := by
    obtain ⟨t, ht, hpc, hconfig, -⟩ := run_sequential n (s := s) (by omega) fun a w _ hw => hjump a w hw
    exact ⟨t, ht, by omega, hconfig⟩
  refine ⟨?ends, fun n hn => ?unfinished⟩
  case ends =>
    obtain ⟨t, ht, hpc, hconfig⟩ := hrun _ (Nat.le_refl _)
    have hstop : t.stopped = true := by simp [State.stopped, State.enabled, hpc, hconfig]
    exact ⟨t, ht.trans (run_of_stopped 0 hstop), hpc⟩
  case unfinished =>
    obtain ⟨t, ht, hpc, hconfig⟩ := hrun n (Nat.le_of_lt hn)
    have he : t.enabled = true := State.enabled_iff.mpr (by rw [hpc, hconfig]; exact hn)
    exact ⟨t, ht.trans (run_zero_of_enabled he), hpc⟩

/-- Settles O36: the zero word is unrecognised. -/
theorem zeroTailLeavesRegisters : Obligations.ZeroTailLeavesRegisters := by
  intro s he hzero
  have hnoop : ∀ a w, s.pc.toNat ≤ a → s.memRead a = some w → decode w = .unrecognised .zeroWord := by
    intro a w ha hw
    rw [hzero a w ha hw]
    decide
  have hlt := State.enabled_iff.mp he
  obtain ⟨t, ht, hpc, hconfig, hregs⟩ := run_sequential (s.config.memWords.val - s.pc.toNat) (s := s) (by omega)
    fun a w ha hw => isJump_of_unrecognised (hnoop a w ha hw)
  have hend : t.pc.toNat = s.config.memWords.val := by omega
  have hstop : t.stopped = true := by simp [State.stopped, State.enabled, hend, hconfig]
  exact ⟨t, ht.trans (run_of_stopped 0 hstop), hregs fun a w ha hw => ⟨_, hnoop a w ha hw⟩, hend⟩

/-! ## The shortest loop -/

/-- A word that is no jump stands at the pc, and a JAL of offset -2 at the next index. -/
structure AtLoopStart (s : State) : Prop where
  first : ∃ v, s.memRead s.pc.toNat = some v ∧ isJump v = false
  second : ∃ w rd, s.memRead (s.pc.toNat + 1) = some w ∧ decode w = .instr (.jal rd (-2#32))

theorem AtLoopStart.enabled {s : State} (h : AtLoopStart s) : s.enabled = true := by
  obtain ⟨v, hv, -⟩ := h.first
  exact State.enabled_of_memRead hv

/-- Two steps lead back to the first index, with the same memory. -/
theorem AtLoopStart.two_steps {s : State} (h : AtLoopStart s) :
    ∃ t u, step s = .next t ∧ t.pc = s.pc + 1#32 ∧ t.enabled = true ∧ step t = .next u ∧ u.pc = s.pc ∧
      AtLoopStart u := by
  obtain ⟨⟨v, hv, hjump⟩, w, rd, hw, hjal⟩ := h
  obtain ⟨t, ht⟩ := step_completes s
  obtain ⟨u, hu⟩ := step_completes t
  have htpc : t.pc = s.pc + 1#32 := step_pc_of_not_jump hv ht hjump
  have hwt : t.memRead t.pc.toNat = some w := by
    rw [step_memRead ht, htpc, State.pc_succ_toNat (State.enabled_of_memRead hv), hw]
  have hupc : u.pc = s.pc := by
    have hback : 1#32 + (1#32 + -2#32) = 0#32 := by decide
    rw [step_pc_of_jal hwt hjal hu, htpc, BitVec.add_assoc, BitVec.add_assoc, hback, BitVec.add_zero]
  have hmemRead (a : Nat) : u.memRead a = s.memRead a := (step_memRead hu a).trans (step_memRead ht a)
  refine ⟨t, u, ht, htpc, State.enabled_of_memRead hwt, hu, hupc, ⟨v, ?_, hjump⟩, w, rd, ?_, hjal⟩ <;>
    rw [hmemRead, hupc] <;> assumption

theorem AtLoopStart.run {s : State} (h : AtLoopStart s) (n : Nat) :
    ∃ t, run n s = .next (.outOfFuel t) ∧ t.pc = if n % 2 = 0 then s.pc else s.pc + 1#32 := by
  induction n using Nat.twoStepInduction generalizing s with
  | zero => exact ⟨s, run_zero_of_enabled h.enabled, rfl⟩
  | one =>
    obtain ⟨t, u, ht, htpc, htenabled, -⟩ := h.two_steps
    exact ⟨t, (run_succ 0 h.enabled ht).trans (run_zero_of_enabled htenabled), htpc⟩
  | more n ih _ =>
    obtain ⟨t, u, ht, -, htenabled, hu, hupc, hloop⟩ := h.two_steps
    rw [run_succ (n + 1) h.enabled ht, run_succ n htenabled hu, Nat.add_mod_right, ← hupc]
    exact ih hloop

/-- Settles O37: the two words are the start of the loop, from which a run of any length ends in the loop. -/
theorem shortestJalLoopNeverStops : Obligations.ShortestJalLoopNeverStops :=
  fun _ v w rd hv hjump hw hjal => AtLoopStart.run ⟨⟨v, hv, hjump⟩, w, rd, hw, hjal⟩

end Sys2Proof.Machine

/-! PROOF. The invariant of the state and of a host session (10_state R11, 70_reset R96 to R99, R107), and the canonical
form of the memory. -/

namespace Sys2Proof.Machine

/-! ## The invariant of the state -/

theorem State.Inv.setPc {s : State} (h : s.Inv) (pc : Word) : (s.setPc pc).Inv := ⟨h.mem, h.zero⟩

/-- With the switch set, a write of register 0 is discarded, and a write of another register leaves it. -/
theorem State.writeReg_regs_zero {s : State} (h : s.config.x0Hardwired = true) (i : RegIdx) (v : Word) :
    (s.writeReg i v).regs[0] = s.regs[0] := by
  rw [State.writeReg_regs]
  split
  · rfl
  · next hi =>
    have hne : i.toNat ≠ 0 := fun hi0 => hi (by
      rw [State.hardwired, h, BitVec.eq_of_toNat_eq (y := 0#5) hi0]
      rfl)
    exact Vector.getElem_set_ne i.isLt (by decide) hne

theorem State.Inv.writeReg {s : State} (h : s.Inv) (i : RegIdx) (v : Word) : (s.writeReg i v).Inv where
  mem := by
    rw [State.writeReg_mem, State.writeReg_config]
    exact h.mem
  zero hon := by
    rw [State.writeReg_config] at hon
    rw [State.writeReg_regs_zero hon]
    exact h.zero hon

theorem State.Inv.execute {s t : State} (h : s.Inv) {d : Selected} (hstep : execute d s = .next t) : t.Inv := by
  rcases execute_cases d s with ⟨c, -, he⟩ | ⟨i, -, he⟩ <;> rw [he] at hstep <;> cases hstep
  · exact h
  · exact (h.writeReg _ _).setPc _

theorem State.Inv.step {s t : State} (h : s.Inv) (hstep : Machine.step s = .next t) : t.Inv := by
  rcases step_cases s with ⟨-, hs⟩ | ⟨w, -, hs⟩ <;> rw [hs] at hstep
  · cases hstep
    exact h
  · exact (h.setPc _).execute hstep

/-- Settles O39: the fetch moves the pc, and the execute stage writes at most one register and the pc. -/
theorem stepKeepsInvariant : Obligations.StepKeepsInvariant := fun _ _ h hstep => h.step hstep

theorem State.resetWith_inv (c : Config) : (State.resetWith c).Inv where
  mem := Memory.reset_wf c
  zero _ := State.resetWith_regs_get c 0

/-- Settles O40: memory is empty and every register is 0. -/
theorem resetMeetsInvariant : Obligations.ResetMeetsInvariant :=
  ⟨State.resetWith_inv Config.default, State.resetWith_inv⟩

/-! ## The load -/

theorem State.placeWords_wf (ws : List Word) {s : State} (hs : s.mem.wf s.config.memWords.val) (a : Nat) :
    (s.placeWords a ws).mem.wf (s.placeWords a ws).config.memWords.val := by
  induction ws generalizing s a with
  | nil => exact hs
  | cons v vs ih => exact ih (State.placeWord_wf hs a v) (a + 1)

theorem loadProgram_of_overlong {ws : List Word} {s : State} (h : s.config.memWords.val < ws.length) :
    loadProgram ws s = .error .programTooLarge := if_neg (Nat.not_le.mpr h)

theorem State.Inv.load {s t : State} {ws : List Word} (h : s.Inv) (hload : loadProgram ws s = .ok t) : t.Inv := by
  rcases Nat.lt_or_ge s.config.memWords.val ws.length with hlong | hfits
  · rw [loadProgram_of_overlong hlong] at hload
    nomatch hload
  · rw [loadProgram_of_fits hfits] at hload
    cases hload
    refine ⟨State.placeWords_wf ws h.mem 0, fun hon => ?_⟩
    rw [State.placeWords_config] at hon
    rw [State.placeWords_regs]
    exact h.zero hon

/-- Settles O41: the load writes words inside the memory, and no register. -/
theorem loadKeepsInvariant : Obligations.LoadKeepsInvariant := fun _ _ _ h hload => h.load hload

/-- Settles O45: a load that is not too long succeeds. -/
theorem overlongLoadRefused : Obligations.OverlongLoadRefused := by
  refine fun ws s => ⟨loadProgram_of_overlong, fun herror => ?_⟩
  by_contra hfits
  rw [loadProgram_of_fits (Nat.not_lt.mp hfits)] at herror
  nomatch herror

/-! ## The canonical memory -/

/-- The first listed index is the first that does not read 0, so it is not before that of a memory that reads alike. -/
theorem Memory.head_le_of_read_eq {n a b : Nat} {u v : Word} {m m' : Memory}
    (h : Memory.wf n ((a, u) :: m)) (h' : Memory.wf n ((b, v) :: m'))
    (hread : ∀ k, Memory.read ((a, u) :: m) k = Memory.read ((b, v) :: m') k) : b ≤ a := by
  by_contra hlt
  have hrest : Memory.read ((b, v) :: m') a = 0#32 := by
    refine Memory.read_of_all_above fun c hc => ?_
    rcases List.mem_cons.mp hc with rfl | hc
    · exact Nat.not_le.mp hlt
    · exact Nat.lt_trans (Nat.not_le.mp hlt) ((List.pairwise_cons.mp h'.1).1 c hc)
  rw [← hread a, Memory.read_cons, if_pos rfl] at hrest
  exact (h.2 (a, u) (by simp)).1 hrest

/-- A memory that lists a word does not read like the empty one. -/
theorem Memory.read_head_ne_zero {n : Nat} {c : Nat × Word} {m : Memory} (h : Memory.wf n (c :: m)) :
    Memory.read (c :: m) c.1 ≠ 0#32 := by
  rw [Memory.read_cons, if_pos rfl]
  exact (h.2 c (by simp)).1

theorem Memory.wf_tail {n : Nat} {c : Nat × Word} {m : Memory} (h : Memory.wf n (c :: m)) : m.wf n :=
  ⟨(List.pairwise_cons.mp h.1).2, fun d hd => h.2 d (List.mem_cons_of_mem c hd)⟩

theorem Memory.read_tail {n a : Nat} {u : Word} {m : Memory} (h : Memory.wf n ((a, u) :: m)) (k : Nat) :
    m.read k = if a = k then 0#32 else Memory.read ((a, u) :: m) k := by
  split
  · next hk =>
    subst hk
    exact Memory.read_of_all_above (List.pairwise_cons.mp h.1).1
  · next hk => rw [Memory.read_cons, if_neg hk]

/-- Settles O42: the first cells agree, and the rests of the lists read alike. -/
theorem canonicalMemoryIsUnique : Obligations.CanonicalMemoryIsUnique := by
  intro n m m' h h' hread
  induction m generalizing m' with
  | nil =>
    cases m' with
    | nil => rfl
    | cons c m' => exact absurd (hread c.1).symm (Memory.read_head_ne_zero h')
  | cons c m ih =>
    cases m' with
    | nil => exact absurd (hread c.1) (Memory.read_head_ne_zero h)
    | cons d m' =>
      obtain ⟨a, u⟩ := c
      obtain ⟨b, v⟩ := d
      obtain rfl : a = b := Nat.le_antisymm (Memory.head_le_of_read_eq h' h fun k => (hread k).symm)
        (Memory.head_le_of_read_eq h h' hread)
      have hword : u = v := by simpa [Memory.read_cons] using hread a
      have hrest : m = m' := ih m' (Memory.wf_tail h) (Memory.wf_tail h') fun k => by
        rw [Memory.read_tail h, Memory.read_tail h', hread]
      rw [hword, hrest]

/-! ## The host -/

theorem Session.move_load_of_running {x : Session} (hrun : x.running = true) (ws : List Word) :
    x.move (.load ws) = .error .busy := if_pos hrun

theorem Session.move_load_of_idle {x : Session} {s : State} {ws : List Word} (hidle : x.running = false)
    (hload : loadProgram ws x.core = .ok s) : x.move (.load ws) = .ok { x with core := s } := by
  simp [Session.move, hidle, hload]

theorem Session.move_load_of_error {x : Session} {e : LoadError} {ws : List Word} (hidle : x.running = false)
    (hload : loadProgram ws x.core = .error e) : x.move (.load ws) = .error (.load e) := by
  simp [Session.move, hidle, hload]

theorem Session.move_start_of_running {x : Session} (hrun : x.running = true) : x.move .start = .error .busy :=
  if_pos hrun

theorem Session.move_start_of_idle {x : Session} (hidle : x.running = false) :
    x.move .start = .ok { x with running := x.core.enabled } := by
  simp [Session.move, hidle]

/-- The clock of a running session is one step, and the run is over when the pc leaves memory. -/
theorem Session.move_clock_of_running {x : Session} {t : State} (hrun : x.running = true) (ht : step x.core = .next t) :
    x.move .clock = .ok { core := t, running := t.enabled } := by
  simp [Session.move, hrun, ht]

theorem Session.move_clock_of_idle {x : Session} (hidle : x.running = false) : x.move .clock = .ok x := by
  simp [Session.move, hidle]

theorem Session.readBack_of_running {x : Session} (hrun : x.running = true) : x.readBack = .error .notStopped := by
  simp [Session.readBack, hrun]

/-- Settles O46: each move of a running session. -/
theorem hostCannotWriteDuringRun : Obligations.HostCannotWriteDuringRun := by
  intro x hrun
  obtain ⟨t, ht⟩ := step_completes x.core
  obtain ⟨hmem, hconfig⟩ := step_mem_config ht
  exact ⟨Session.move_load_of_running hrun, Session.move_start_of_running hrun, rfl,
    ⟨_, Session.move_clock_of_running hrun ht, ht, rfl, hmem, hconfig⟩, Session.readBack_of_running hrun⟩

theorem Session.construct_inv (c : Config) : (Session.construct c).Inv := ⟨State.resetWith_inv c, nofun⟩

/-- A load is accepted outside a run only, and no run begins by it. -/
theorem Session.Inv.load {x y : Session} (h : x.Inv) {ws : List Word} (hmove : x.move (.load ws) = .ok y) : y.Inv := by
  cases hrun : x.running with
  | true =>
    rw [Session.move_load_of_running hrun] at hmove
    nomatch hmove
  | false =>
    cases hload : loadProgram ws x.core with
    | error e =>
      rw [Session.move_load_of_error hrun hload] at hmove
      nomatch hmove
    | ok s =>
      rw [Session.move_load_of_idle hrun hload] at hmove
      cases hmove
      exact ⟨h.core.load hload, fun hrunning => by rw [hrun] at hrunning; nomatch hrunning⟩

theorem Session.Inv.start {x y : Session} (h : x.Inv) (hmove : x.move .start = .ok y) : y.Inv := by
  cases hrun : x.running with
  | true =>
    rw [Session.move_start_of_running hrun] at hmove
    nomatch hmove
  | false =>
    rw [Session.move_start_of_idle hrun] at hmove
    cases hmove
    exact ⟨h.core, id⟩

theorem Session.Inv.clock {x y : Session} (h : x.Inv) (hmove : x.move .clock = .ok y) : y.Inv := by
  cases hrun : x.running with
  | true =>
    obtain ⟨t, ht⟩ := step_completes x.core
    rw [Session.move_clock_of_running hrun ht] at hmove
    cases hmove
    exact ⟨h.core.step ht, id⟩
  | false =>
    rw [Session.move_clock_of_idle hrun] at hmove
    cases hmove
    exact h

theorem Session.Inv.move {x y : Session} (h : x.Inv) {m : HostMove} (hmove : x.move m = .ok y) : y.Inv := by
  cases m with
  | reset =>
    cases hmove
    exact Session.construct_inv x.core.config
  | load ws => exact h.load hmove
  | start => exact h.start hmove
  | clock => exact h.clock hmove

/-- Settles O47: every accepted move keeps the invariant, so every list of them does. -/
theorem hostMovesKeepSessionInvariant : Obligations.HostMovesKeepSessionInvariant := by
  intro ms x y h hmoves
  induction ms generalizing x with
  | nil =>
    cases hmoves
    exact h
  | cons m ms ih =>
    rw [Session.moves] at hmoves
    split at hmoves
    · next z hz => exact ih z (h.move hz) hmoves
    · nomatch hmoves

end Sys2Proof.Machine

/-! PROOF. The datapath (40_fetch R67) and the two-word `li` (30_encoding R56). -/

namespace Sys2Proof.Machine

/-! ## The signals -/

theorem clockEdge_of_stopped {s : State} (h : s.enabled = false) : clockEdge false s = s := by
  simp [clockEdge, signals, h]

/-- The clock edge at a word: the write port, and the multiplexer of the pc. -/
theorem clockEdge_of_memRead {s : State} {w : Word} (h : s.memRead s.pc.toNat = some w) :
    clockEdge false s =
      (if (decode w).label != .noop then
          s.writeReg (decodeFields w).rd
            (writeBackData (decode w).label (s.pc + 1#32) (s.readReg (decodeFields w).rs1)
              (s.readReg (decodeFields w).rs2) (decodeFields w).imm)
        else s).setPc
        (if (decode w).label == .jal || (decode w).label == .jalr then
          jumpTarget (decode w).label s (decodeFields w) (s.pc + 1#32)
        else s.pc + 1#32) := by
  obtain ⟨hlt, rfl⟩ := State.memRead_eq_some.mp h
  simp [clockEdge, signals, State.enabled_iff.mpr hlt]

theorem rd_withOperands (d : Decoded) (i : Instr) : (i.withOperands d).rd = d.rd := by
  cases i <;> rfl

/-- The bypass from the write port gives the base as it reads after the link is written. -/
theorem jalrBase_eq (s : State) (d : Decoded) (pc1 : Word) :
    jalrBase s d pc1 = (s.writeReg d.rd pc1).readReg d.rs1 := by
  rw [State.readReg_writeReg, jalrBase]
  by_cases hsame : d.rd = d.rs1
  · cases hhard : s.hardwired d.rd with
    | false => simp [hsame]
    | true =>
      have hzero : s.readReg d.rs1 = 0#32 := State.readReg_of_hardwired (hsame ▸ hhard)
      simp [hsame, hzero]
  · simp [hsame]

/-- The write-back data of a word's operands is the value its instruction writes. -/
theorem writeBackData_eq (s : State) (d : Decoded) (i : Instr) (pc1 : Word) :
    writeBackData (Selected.instr (i.withOperands d)).label pc1 (s.readReg d.rs1) (s.readReg d.rs2) d.imm =
      writeBackValue (s.setPc pc1) (i.withOperands d) := by
  cases i <;> rfl

/-- The multiplexer of the pc gives the pc the instruction leaves. -/
theorem pcMux_eq (s : State) (d : Decoded) (i : Instr) (pc1 : Word) :
    (if (Selected.instr (i.withOperands d)).label == .jal || (Selected.instr (i.withOperands d)).label == .jalr then
        jumpTarget (Selected.instr (i.withOperands d)).label s d pc1
      else pc1) = pcAfter (s.setPc pc1) (i.withOperands d) := by
  cases i with
  | jalr =>
    have hbase : jalrBase s d pc1 = ((s.setPc pc1).writeReg d.rd pc1).readReg d.rs1 := by
      rw [jalrBase_eq, State.readReg_writeReg, State.readReg_writeReg]
      rfl
    exact congrArg (jalrTarget · d.imm) hbase
  | lui | auipc | jal | addi | add | sub => rfl

theorem label_instr_ne_noop (i : Instr) : ((Selected.instr i).label != .noop) = true := by
  cases i <;> rfl

theorem setPc_writeReg_setPc (s : State) (i : RegIdx) (v pc1 pc2 : Word) :
    ((s.setPc pc1).writeReg i v).setPc pc2 = (s.writeReg i v).setPc pc2 := by
  rw [State.writeReg, State.writeReg, State.hardwired_setPc]
  split <;> rfl

/-- Settles O48: by what the word at the pc selects, with the operands the dispatch takes from the record. -/
theorem datapathComputesTheStep : Obligations.DatapathComputesTheStep := by
  refine fun s => ⟨?_, rfl⟩
  rcases State.stopped_or_word s with hstop | ⟨w, hw⟩
  · rw [step_of_stopped hstop, clockEdge_of_stopped hstop]
  rw [clockEdge_of_memRead hw]
  cases hd : decode w with
  | unrecognised c =>
    rw [step_of_unrecognised hw hd]
    rfl
  | instr i =>
    obtain ⟨-, hops⟩ := select_eq_some.mp (decode_eq_instr.mp hd)
    rw [step_of_instr hw hd, exec_eq, setPc_writeReg_setPc, if_pos (label_instr_ne_noop i), hops, pcMux_eq,
      writeBackData_eq, rd_withOperands]

/-! ## The two-word `li` (R56) -/

theorem OnlyWrites.trans {s t u : State} {rd : RegIdx} {v v' target target' : Word} (h : OnlyWrites s t rd v target)
    (h' : OnlyWrites t u rd v' target') : OnlyWrites s u rd v' target' where
  written := by rw [h'.written, State.hardwired, State.hardwired, h.config]
  others r hr := (h'.others r hr).trans (h.others r hr)
  pc := h'.pc
  mem a := (h'.mem a).trans (h.mem a)
  config := h'.config.trans h.config

/-- Clearing the low 12 bits rounds down to a multiple of 4096. -/
theorem toNat_immU (x : Word) : (immU x).toNat = 4096 * (x.toNat / 4096) := by
  have hx := x.isLt
  rw [immU_eq_append, BitVec.toNat_append, bits_eq_extractLsb', BitVec.extractLsb'_toNat]
  simp only [BitVec.toNat_ofNat, Nat.zero_mod, Nat.or_zero, Nat.shiftRight_eq_div_pow, Nat.shiftLeft_eq]
  omega

/-- The rounding of the upper part makes up for the sign of the lower part. -/
theorem immU_add_signExtend (imm : Word) : immU (imm + 0x800#32) + (bits imm 11 0).signExtend 32 = imm := by
  have hlow : (bits imm 11 0).toNat = imm.toNat % 4096 := by simp [bits_eq_extractLsb']
  have hsign : ((bits imm 11 0).signExtend 32).toNat =
      imm.toNat % 4096 + if 2048 ≤ imm.toNat % 4096 then 2 ^ 32 - 4096 else 0 := by
    have hlt : imm.toNat % 4096 % 2 ^ 32 = imm.toNat % 4096 := Nat.mod_eq_of_lt (by omega)
    rw [BitVec.toNat_signExtend, BitVec.msb_eq_decide, BitVec.toNat_setWidth, hlow, hlt]
    simp only [decide_eq_true_eq]
  have hx := imm.isLt
  refine BitVec.eq_of_toNat_eq ?_
  rw [BitVec.toNat_add, toNat_immU, BitVec.toNat_add, hsign, BitVec.toNat_ofNat]
  split <;> omega

theorem expand_li {rd : RegIdx} {imm : Word} {i j : Instr} (h : expand (.li rd imm) = [i, j]) :
    i = .lui rd (immU (imm + 0x800#32)) ∧ j = .addi rd rd ((bits imm 11 0).signExtend 32) := by
  cases h
  exact ⟨rfl, rfl⟩

/-- Settles O49: the LUI leaves the rounded upper part, to which the ADDI adds the signed lower part. -/
theorem loadImmediatePairLoadsAnyConstant : Obligations.LoadImmediatePairLoadsAnyConstant := by
  intro s rd imm i j hexpand hi hj
  obtain ⟨rfl, rfl⟩ := expand_li hexpand
  obtain ⟨t, ht, hst⟩ := step_onlyWrites hi (decodeOfEncode _ (fitsU_immU _))
  have htpc : t.pc = s.pc + 1#32 := hst.pc
  have hjt : t.memRead t.pc.toNat = some (encode (.addi rd rd ((bits imm 11 0).signExtend 32))) := by
    rw [hst.mem, htpc, State.pc_succ_toNat (State.enabled_of_memRead hi), hj]
  obtain ⟨u, hu, htu⟩ := step_onlyWrites hjt (decodeOfEncode _ (fitsI_signExtend _))
  obtain ⟨hwritten, hothers, hpc, hmem, hconfig⟩ := hst.trans htu
  refine ⟨u, (stepN_succ 1 ht).trans (stepN_succ 0 hu), ?written, hothers, ?pc, hmem, hconfig⟩
  case written =>
    have hupper : t.readReg rd = if s.hardwired rd then 0#32 else immU (imm + 0x800#32) := hst.written
    have hsum : u.readReg rd =
        if s.hardwired rd then 0#32 else t.readReg rd + (bits imm 11 0).signExtend 32 := hwritten
    cases hhard : s.hardwired rd with
    | true => rw [hsum, hhard]; rfl
    | false =>
      rw [hhard, if_neg Bool.false_ne_true] at hsum hupper
      rw [hsum, hupper, immU_add_signExtend]
      rfl
  case pc =>
    calc u.pc
        = t.pc + 1#32 := hpc
      _ = s.pc + 2#32 := by rw [htpc, BitVec.add_assoc]; rfl

end Sys2Proof.Machine
